-- ==== Sys2Proof/Word.lean ====
section
/-! DEFINITION. The widths of the engine: bytes, 16-bit units, 32-bit words, and eight lanes of words. -/

namespace Sys2Proof

/-- One byte of a command or response payload (20_memory.md R31). -/
abbrev Byte := BitVec 8

/-- A 16-bit unit: a subkey, an IV sub-word or an output word (20_memory.md R32, R33, R34). -/
abbrev Half := BitVec 16

/-- A state or counter word (10_state.md R10, R11). -/
abbrev Word := BitVec 32

/-- One word for each of the eight lanes (10_state.md R12). -/
abbrev Lanes := Vector Word 8

/-- All eight lanes zero. -/
abbrev Lanes.zero : Lanes := #v[0, 0, 0, 0, 0, 0, 0, 0]

end Sys2Proof
end

