-- ==== Sys2Proof/Config.lean ====
section
/-! DEFINITION. The parameters that 00_scope.md R3 fixes, and the frame limit MAXLEN of 30_encoding.md R55.
The engine is deterministic (R4), so there is no free value here. -/

namespace Sys2Proof

/-- KEYLEN, the number of key bytes (00_scope.md R3). -/
abbrev Config.keyLen : Nat := 16

/-- IVLEN, the number of IV bytes (00_scope.md R3). -/
abbrev Config.ivLen : Nat := 8

/-- MAXLEN, the largest payload a frame can carry (30_encoding.md R55). -/
abbrev Config.maxLen : Nat := 255

/-- NEXTSTATE iterations in SETKEY (00_scope.md R3, 41_key_schedule.md R83). -/
abbrev Config.keyRounds : Nat := 4

/-- NEXTSTATE iterations in SETIV (00_scope.md R3, 42_iv_schedule.md R94). -/
abbrev Config.ivRounds : Nat := 4

/-- A KEY payload of the valid length, KEY[0] first (20_memory.md R30, R31). -/
abbrev Key := Vector Byte 16

/-- An IV payload of the valid length, IV[0] first (20_memory.md R30, R31). -/
abbrev Iv := Vector Byte 8

/-- A keystream block of BLOCKLEN = 16 bytes, OUT[0] first (00_scope.md R3; 20_memory.md R30, R31). -/
abbrev Block := Vector Byte 16

end Sys2Proof
end

