-- ==== Sys2Proof/Syntax.lean ====
section
/-! DEFINITION. The four commands of 30_encoding.md R50, one constructor per row of spec/opcode_table.json. -/

namespace Sys2Proof

/-- A host command (30_encoding.md R50). The operand of SETKEY and SETIV is a byte sequence of any length,
since the spec says what happens at every length (R50, R55, R59). -/
inductive Instr where
  /-- RESET: destroy all state (44_reset_command.md R110). -/
  | reset
  /-- SETKEY: key setup, KEY[0] first (41_key_schedule.md R80). -/
  | setkey (key : List Byte)
  /-- SETIV: IV setup, IV[0] first (42_iv_schedule.md R90). -/
  | setiv (iv : List Byte)
  /-- NEXT: the next 16 keystream bytes (43_keystream_extract.md R100). -/
  | next
  deriving DecidableEq, Repr

/-- The payload bytes DATA[0], DATA[1], … that the command's frame carries (30_encoding.md R52). -/
def Instr.payload : Instr → List Byte
  | .reset => []
  | .setkey key => key
  | .setiv iv => iv
  | .next => []

end Sys2Proof
end

