-- ==== Sys2Proof/Machine/State.lean ====
section
/-! DEFINITION. The engine's registers (10_state.md section 1, the complete list by R17) and the record of the
command port; the reasons a step can stop; the state right after reset. -/

namespace Sys2Proof.Machine

/-- The working state's shape, which the master snapshot shares (10_state.md R10, R11, R13, R14). -/
structure RegisterSet where
  /-- x[0..7], the state words (R10); mx[0..7] in the master snapshot (R14). -/
  x : Lanes
  /-- c[0..7], the counter words (R11); mc[0..7] in the master snapshot (R14). -/
  c : Lanes
  /-- carry, the one flag (R13); mcarry in the master snapshot (R14). -/
  carry : Bool
  deriving DecidableEq, Repr

/-- Every word zero and the carry 0. -/
def RegisterSet.zero : RegisterSet :=
  { x := Lanes.zero, c := Lanes.zero, carry := false }

/-- The engine's whole state, 1027 bits (10_state.md section 1, R17, R25). -/
structure Engine where
  /-- The working state x, c, carry (R10, R11, R13). -/
  work : RegisterSet
  /-- The master snapshot mx, mc, mcarry (R14, R15). -/
  master : RegisterSet
  /-- keyReady: true once a SETKEY has succeeded; gates SETIV (R16). -/
  keyReady : Bool
  deriving DecidableEq, Repr

/-- The reset state of the engine (10_state.md R22): every register zero, keyReady false. The two carry bits are
the spec's decision D6 (notes/assumptions/6.md). -/
def Engine.reset : Engine :=
  { work := RegisterSet.zero, master := RegisterSet.zero, keyReady := false }

/-- The engine's two errors (60_exceptions.md R120). An error exists only in a response (R125). -/
inductive EngineError where
  /-- A KEY that is not 16 bytes, or an IV that is not 8 bytes on a Keyed engine (R121). -/
  | invalidLength
  /-- SETIV while keyReady is 0 (R122). -/
  | keyNotSet
  deriving DecidableEq, Repr

/-- The one response a command gets (30_encoding.md R56). Only NEXT's carries data. -/
inductive Response where
  /-- STATUS = OK and no data: RESET, SETKEY, SETIV. -/
  | ok
  /-- STATUS = OK and OUT[0..15]: NEXT. -/
  | block (out : Block)
  /-- STATUS = an error code and no data: SETKEY, SETIV. -/
  | error (e : EngineError)
  deriving DecidableEq, Repr

/-- What reaches the engine from outside, the only ways there are (70_reset_and_hazards.md R154). -/
inductive PortEvent where
  /-- The next byte of the command frames the host presents (30_encoding.md R53). -/
  | byte (b : Byte)
  /-- A hardware reset between commands, or before a frame has wholly crossed (70_reset_and_hazards.md R140). -/
  | hardwareReset
  /-- A hardware reset while the command whose frame has just crossed is executing (70_reset_and_hazards.md R142);
  with no command executing it is a hardware reset like the other (the model's deduction, notes/assumptions/4.md). -/
  | resetDuringCommand
  deriving DecidableEq, Repr

/-- The engine and its command port. -/
structure State where
  /-- The engine's registers. -/
  engine : Engine
  /-- THE MODEL'S OWN FIELD: what the host has still to present, first event first (notes/assumptions/1.md). -/
  input : List PortEvent
  /-- THE MODEL'S OWN FIELD: the responses given so far, oldest first (notes/assumptions/2.md). -/
  responses : List Response
  deriving DecidableEq, Repr

/-- x[0..7] (10_state.md R10). -/
abbrev State.x (s : State) : Lanes := s.engine.work.x
/-- c[0..7] (10_state.md R11). -/
abbrev State.c (s : State) : Lanes := s.engine.work.c
/-- carry (10_state.md R13). -/
abbrev State.carry (s : State) : Bool := s.engine.work.carry
/-- mx[0..7] (10_state.md R14). -/
abbrev State.mx (s : State) : Lanes := s.engine.master.x
/-- mc[0..7] (10_state.md R14). -/
abbrev State.mc (s : State) : Lanes := s.engine.master.c
/-- mcarry (10_state.md R14). -/
abbrev State.mcarry (s : State) : Bool := s.engine.master.carry
/-- keyReady (10_state.md R16). -/
abbrev State.keyReady (s : State) : Bool := s.engine.keyReady

/-- The machine right after reset (10_state.md R22; 70_reset_and_hazards.md R140, R141): the reset registers, the
port empty, waiting for a command. -/
def State.reset : State :=
  { engine := Engine.reset, input := [], responses := [] }

/-- The engine has no fault, trap or fatal condition (60_exceptions.md R120, R128), so this type has no
constructor: no step ends in a fault (notes/assumptions/13.md). The two errors are responses (R125). -/
inductive Fault where
  deriving DecidableEq, Repr

/-- Why a step gives no meaning. -/
inductive Refusal where
  /-- Raised by an arm of `exec` for a command with no meaning yet; no arm raises it. Safe. -/
  | notModelled (mnemonic : String)
  /-- Raised by `step` for a frame whose OP is 0x04 to 0xFF, to which the spec gives no meaning
  (30_encoding.md R58). Safe: the run stops. -/
  | reservedOp (op : Byte)
  /-- Raised by `step` for a RESET or NEXT frame whose LEN is not 0, to which the spec gives no meaning
  (30_encoding.md R58). Safe: the run stops. -/
  | reservedLength (op len : Byte)
  deriving DecidableEq, Repr

end Sys2Proof.Machine
end

