-- ==== Sys2Proof/Machine/Ops.lean ====
section
/-! DEFINITION. The shared operations: ending a command with its one response, ending it with an error, hardware
reset, the snapshot and the restore, and the bytes of a response. -/

namespace Sys2Proof.Machine

/-- End a command: its effect on the registers is complete, then its one response is given
(20_memory.md R41; 30_encoding.md R56). -/
def State.complete (s : State) (e : Engine) (r : Response) : State :=
  { s with engine := e, responses := s.responses ++ [r] }

/-- TAKING AN ERROR (60_exceptions.md R123, R125, R126): the response is the error, no register is written,
nothing is saved and no control is transferred. There is no return from an error (R127): the next command is
taken like any other. -/
def State.raise (s : State) (err : EngineError) : State :=
  s.complete s.engine (.error err)

/-- Hardware reset (70_reset_and_hazards.md R140, R142): every register takes its reset value and no response is
given. -/
def State.hardwareReset (s : State) : State :=
  { s with engine := Engine.reset }

/-- The port after the host's next events have been taken. -/
def State.withInput (s : State) (input : List PortEvent) : State :=
  { s with input := input }

/-- SETKEY's last step (41_key_schedule.md R85): the working state is copied into the master snapshot and the
engine becomes Keyed. -/
def Engine.snapshot (w : RegisterSet) : Engine :=
  { work := w, master := w, keyReady := true }

/-- Replace the working state x, c, carry and nothing else. -/
def Engine.withWork (e : Engine) (w : RegisterSet) : Engine :=
  { e with work := w }

/-- The status byte of an error (30_encoding.md R56; 60_exceptions.md R120). -/
def EngineError.status : EngineError → Byte
  | .invalidLength => 0x01
  | .keyNotSet => 0x02

/-- The bytes of a response as they cross the port, STATUS first and OUT[0] next (30_encoding.md R56). -/
def Response.bytes : Response → List Byte
  | .ok => [0x00]
  | .block out => 0x00 :: out.toList
  | .error e => [e.status]

/-- All response bytes the host has been given, in order (20_memory.md R42). -/
def State.outputBytes (s : State) : List Byte :=
  s.responses.flatMap Response.bytes

end Sys2Proof.Machine
end

