-- ==== Sys2Proof/Machine/Operands.lean ====
section
/-! DEFINITION. Operand assembly (30_encoding.md R57): the exact-length read of a payload, the 16-bit little-endian
units, the words packed from two of them, and the output bytes. Every widening is a zero extension. -/

namespace Sys2Proof.Machine

/-- The payload as exactly `n` bytes, or nothing at any other length: never padded, never truncated
(20_memory.md R37). -/
def exactBytes (n : Nat) (l : List Byte) : Option (Vector Byte n) :=
  if h : l.length = n then some ⟨l.toArray, h⟩ else none

/-- A 16-bit unit from its low byte and its high byte (20_memory.md R32, R33). -/
def unit16 (lo hi : Byte) : Half := hi ++ lo

/-- `hi : lo`, two 16-bit units packed into a word (00_scope.md section 5). -/
def pack (hi lo : Half) : Word := hi ++ lo

/-- The subkeys k[0..7] (20_memory.md R32). -/
def subkeys (key : Key) : Vector Half 8 := #v[
  unit16 key[0] key[1], unit16 key[2] key[3], unit16 key[4] key[5], unit16 key[6] key[7],
  unit16 key[8] key[9], unit16 key[10] key[11], unit16 key[12] key[13], unit16 key[14] key[15]]

/-- The IV sub-words siv[0..3] (20_memory.md R33). -/
def ivUnits (iv : Iv) : Vector Half 4 := #v[
  unit16 iv[0] iv[1], unit16 iv[2] iv[3], unit16 iv[4] iv[5], unit16 iv[6] iv[7]]

/-- The pairs (a, b) with x[i] = k[a] : k[b] (41_key_schedule.md R82). -/
def keyPairsX : Vector (Fin 8 × Fin 8) 8 :=
  #v[(1, 0), (6, 5), (3, 2), (0, 7), (5, 4), (2, 1), (7, 6), (4, 3)]

/-- The pairs (a, b) with c[i] = k[a] : k[b] (41_key_schedule.md R82). -/
def keyPairsC : Vector (Fin 8 × Fin 8) 8 :=
  #v[(4, 5), (1, 2), (6, 7), (3, 4), (0, 1), (5, 6), (2, 3), (7, 0)]

/-- The pairs (a, b) with siv[a] : siv[b] XORed into c[i] (42_iv_schedule.md R93). That the first index is the
high half is the spec's decision D10 (notes/assumptions/8.md). -/
def ivPairs : Vector (Fin 4 × Fin 4) 8 :=
  #v[(1, 0), (3, 1), (3, 2), (2, 0), (1, 0), (3, 1), (3, 2), (2, 0)]

/-- The words packed from 16-bit units by a table of pairs, high half first. -/
def packPairs {n : Nat} (pairs : Vector (Fin n × Fin n) 8) (units : Vector Half n) : Lanes :=
  Vector.ofFn fun i : Fin 8 => pack units[pairs[i].1] units[pairs[i].2]

/-- v[15:0] of a word. -/
def lowHalf (v : Word) : Half := v.extractLsb' 0 16

/-- v[31:16] of a word. -/
def highHalf (v : Word) : Half := v.extractLsb' 16 16

/-- w[7:0] of a 16-bit unit. -/
def lowByte (w : Half) : Byte := w.extractLsb' 0 8

/-- w[15:8] of a 16-bit unit. -/
def highByte (w : Half) : Byte := w.extractLsb' 8 8

/-- Eight 16-bit units as 16 bytes, each unit's low byte first (20_memory.md R34). -/
def serialize (w : Vector Half 8) : Block := #v[
  lowByte w[0], highByte w[0], lowByte w[1], highByte w[1], lowByte w[2], highByte w[2], lowByte w[3], highByte w[3],
  lowByte w[4], highByte w[4], lowByte w[5], highByte w[5], lowByte w[6], highByte w[6], lowByte w[7], highByte w[7]]

end Sys2Proof.Machine
end

