-- ==== Sys2Proof/Machine/Flags.lean ====
section
/-! DEFINITION. The engine's one flag, carry (10_state.md R13): the addition that makes it. -/

namespace Sys2Proof.Machine

/-- Add two words and a carry in (40_state_update.md R71, R76): the exact sum t, of which t mod 2^32 is the word
and `t ≥ 2^32` the carry out. -/
def addWithCarry (a b : Word) (carryIn : Bool) : Word × Bool :=
  let t := a.toNat + b.toNat + carryIn.toNat
  (BitVec.ofNat 32 t, decide (2 ^ 32 ≤ t))

end Sys2Proof.Machine
end

