-- ==== Sys2Proof/Machine/StateUpdate.lean ====
section
/-! DEFINITION. The state update function of 40_state_update.md: CTRUPD, G, DIFFUSE and NEXTSTATE. They run only
inside commands and cannot fail (R75). -/

namespace Sys2Proof.Machine

/-- The counter increments A[0..7] (40_state_update.md R70). -/
def increments : Lanes := #v[
  0x4D34D34D, 0xD34D34D3, 0x34D34D34, 0x4D34D34D, 0xD34D34D3, 0x34D34D34, 0x4D34D34D, 0xD34D34D3]

/-- CTRUPD (40_state_update.md R71): each lane adds its increment and the carry of the lane before it, lane 0 the
stored carry; the carry out of lane 7 is stored. -/
def ctrUpd (counters : Lanes) (carry : Bool) : Lanes × Bool :=
  let t0 := addWithCarry counters[0] increments[0] carry
  let t1 := addWithCarry counters[1] increments[1] t0.2
  let t2 := addWithCarry counters[2] increments[2] t1.2
  let t3 := addWithCarry counters[3] increments[3] t2.2
  let t4 := addWithCarry counters[4] increments[4] t3.2
  let t5 := addWithCarry counters[5] increments[5] t4.2
  let t6 := addWithCarry counters[6] increments[6] t5.2
  let t7 := addWithCarry counters[7] increments[7] t6.2
  (#v[t0.1, t1.1, t2.1, t3.1, t4.1, t5.1, t6.1, t7.1], t7.2)

/-- G (40_state_update.md R72): the sum mod 2^32, squared to 64 bits, its two halves XORed. -/
def gFunction (x c : Word) : Word :=
  let u : Word := x + c
  let sq : BitVec 64 := u.setWidth 64 * u.setWidth 64
  sq.extractLsb' 0 32 ^^^ sq.extractLsb' 32 32

/-- rotl(v, n) (00_scope.md section 5). -/
def rotl (v : Word) (n : Nat) : Word := v.rotateLeft n

/-- DIFFUSE (40_state_update.md R73): the eight new state words from the eight g values, each sum mod 2^32. -/
def diffuse (g : Lanes) : Lanes := #v[
  g[0] + rotl g[7] 16 + rotl g[6] 16,
  g[1] + rotl g[0] 8 + g[7],
  g[2] + rotl g[1] 16 + rotl g[0] 16,
  g[3] + rotl g[2] 8 + g[1],
  g[4] + rotl g[3] 16 + rotl g[2] 16,
  g[5] + rotl g[4] 8 + g[3],
  g[6] + rotl g[5] 16 + rotl g[4] 16,
  g[7] + rotl g[6] 8 + g[5]]

/-- The eight g values, from the old state words and the counters already updated (40_state_update.md R74). -/
def gValues (xs cs : Lanes) : Lanes :=
  Vector.ofFn fun i : Fin 8 => gFunction xs[i] cs[i]

/-- NEXTSTATE (40_state_update.md R74): CTRUPD, then G on every lane, then DIFFUSE. -/
def nextState (w : RegisterSet) : RegisterSet :=
  let (c, carry) := ctrUpd w.c w.carry
  { x := diffuse (gValues w.x c), c := c, carry := carry }

/-- NEXTSTATE applied n times (41_key_schedule.md R83; 42_iv_schedule.md R94). -/
def nextStates : Nat → RegisterSet → RegisterSet
  | 0, w => w
  | n + 1, w => nextStates n (nextState w)

end Sys2Proof.Machine
end

