-- ==== Sys2Proof/Machine/Extract.lean ====
section
/-! DEFINITION. The command NEXT (43_keystream_extract.md). -/

namespace Sys2Proof.Machine

/-- The extraction map (43_keystream_extract.md R101): w[n] is the low half of one state word XOR the high half of
another. -/
def extractWords (x : Lanes) : Vector Half 8 := #v[
  lowHalf x[0] ^^^ highHalf x[5],
  lowHalf x[3] ^^^ highHalf x[0],
  lowHalf x[2] ^^^ highHalf x[7],
  lowHalf x[5] ^^^ highHalf x[2],
  lowHalf x[4] ^^^ highHalf x[1],
  lowHalf x[7] ^^^ highHalf x[4],
  lowHalf x[6] ^^^ highHalf x[3],
  lowHalf x[1] ^^^ highHalf x[6]]

/-- The block OUT[0..15] of a working state (43_keystream_extract.md R101; 20_memory.md R34). -/
def keystreamBlock (w : RegisterSet) : Block :=
  serialize (extractWords w.x)

/-- NEXT (43_keystream_extract.md R100, R102): one NEXTSTATE, then the block of the NEW state. keyReady is not read
(R103, the spec's decision D9, notes/assumptions/9.md). -/
def execNext (s : State) : Host.Outcome State Fault Refusal :=
  let w := nextState s.engine.work
  .next (s.complete (s.engine.withWork w) (.block (keystreamBlock w)))

end Sys2Proof.Machine
end

