-- ==== Sys2Proof/Machine/IvSchedule.lean ====
section
/-! DEFINITION. The command SETIV (42_iv_schedule.md). -/

namespace Sys2Proof.Machine

/-- The IV injection (42_iv_schedule.md R93): each counter XORed with its word of two IV units. -/
def injectIv (iv : Iv) (w : RegisterSet) : RegisterSet :=
  let words := packPairs ivPairs (ivUnits iv)
  { w with c := Vector.ofFn fun i : Fin 8 => w.c[i] ^^^ words[i] }

/-- IV setup proper (42_iv_schedule.md R92 to R94): the working state restored from the master snapshot, the
injection, four NEXTSTATE. -/
def ivSetup (master : RegisterSet) (iv : Iv) : RegisterSet :=
  nextStates Config.ivRounds (injectIv iv master)

/-- SETIV (42_iv_schedule.md R90, R91): the keyReady test, then the length test, both before any write. That
keyReady is tested first is the spec's decision D5 (60_exceptions.md R124, notes/assumptions/7.md). -/
def execSetiv (iv : List Byte) (s : State) : Host.Outcome State Fault Refusal :=
  if s.engine.keyReady then
    match exactBytes Config.ivLen iv with
    | none => .next (s.raise .invalidLength)
    | some v => .next (s.complete (s.engine.withWork (ivSetup s.engine.master v)) .ok)
  else .next (s.raise .keyNotSet)

end Sys2Proof.Machine
end

