-- ==== Sys2Proof/Machine/KeySchedule.lean ====
section
/-! DEFINITION. The command SETKEY (41_key_schedule.md). -/

namespace Sys2Proof.Machine

/-- The initial load (41_key_schedule.md R82): x and c from pairs of subkeys, carry 0. -/
def keyLoad (key : Key) : RegisterSet :=
  let k := subkeys key
  { x := packPairs keyPairsX k, c := packPairs keyPairsC k, carry := false }

/-- The re-injection (41_key_schedule.md R84): each counter XORed with the state word four lanes away. -/
def reinject (w : RegisterSet) : RegisterSet :=
  { w with c := Vector.ofFn fun i : Fin 8 => w.c[i] ^^^ w.x[i + 4] }

/-- Key setup proper (41_key_schedule.md R82 to R85): load, four NEXTSTATE, re-injection, snapshot. No register is
read that the command has not written (R87). -/
def keySetup (key : Key) : Engine :=
  Engine.snapshot (reinject (nextStates Config.keyRounds (keyLoad key)))

/-- SETKEY (41_key_schedule.md R80, R81): the length check comes before any write. -/
def execSetkey (key : List Byte) (s : State) : Host.Outcome State Fault Refusal :=
  match exactBytes Config.keyLen key with
  | none => .next (s.raise .invalidLength)
  | some k => .next (s.complete (keySetup k) .ok)

end Sys2Proof.Machine
end

