-- ==== Sys2Proof/Machine/ResetCommand.lean ====
section
/-! DEFINITION. The command RESET (44_reset_command.md). -/

namespace Sys2Proof.Machine

/-- RESET (44_reset_command.md R110): every register to zero; it cannot fail. -/
def execReset (s : State) : Host.Outcome State Fault Refusal :=
  .next (s.complete Engine.reset .ok)

end Sys2Proof.Machine
end

