-- ==== Sys2Proof/Machine/Dispatch.lean ====
section
/-! DEFINITION. One arm per command: the four commands of 30_encoding.md R50. -/

namespace Sys2Proof.Machine

def exec (i : Instr) (s : State) : Host.Outcome State Fault Refusal :=
  match i with
  | .reset => Sys2Proof.Machine.execReset s
  | .setkey key => Sys2Proof.Machine.execSetkey key s
  | .setiv iv => Sys2Proof.Machine.execSetiv iv s
  | .next => Sys2Proof.Machine.execNext s

end Sys2Proof.Machine
end

