-- ==== Sys2Proof/WellFormed.lean ====
section
/-! DEFINITION. Which commands a frame can carry. -/

namespace Sys2Proof

/-- A command is well formed when its payload fits in one frame: LEN is one byte, so 0 to 255 payload bytes
(30_encoding.md R52, R55). A wrong KEY or IV length is well formed: it is judged when the command executes (R59). -/
def Instr.wf (i : Instr) : Bool :=
  decide (i.payload.length ≤ Config.maxLen)

end Sys2Proof
end

