-- ==== Sys2Proof/Decode.lean ====
section
/-! DEFINITION. The command frame of 30_encoding.md (R51 to R59): the decoder, total on any bytes and rejecting
by name, then the encoder, both written from the table of R54. The frame is the spec's decision D2
(notes/assumptions/16.md). -/

namespace Sys2Proof

/-- Why bytes are no command. -/
inductive DecodeError where
  /-- Fewer bytes than the header and the LEN byte ask for (R51): the frame has not wholly crossed the port. -/
  | truncated
  /-- OP is 0x04 to 0xFF (R58). -/
  | reservedOp (op : Byte)
  /-- RESET or NEXT with LEN not 0 (R58). -/
  | reservedLength (op len : Byte)
  deriving DecidableEq, Repr

/-- The operation code of each command (R54). -/
def Instr.opcode : Instr → Byte
  | .reset => 0x00
  | .setkey _ => 0x01
  | .setiv _ => 0x02
  | .next => 0x03

/-- One whole frame, by its OP, LEN and payload (R54). RESET and NEXT accept LEN 0 only; SETKEY and SETIV accept
every LEN, whose validity is judged at execution (R59). -/
def decodeFrame (op len : Byte) (data : List Byte) : Except DecodeError Instr :=
  if op = 0x00 then (if len = 0x00 then .ok .reset else .error (.reservedLength op len))
  else if op = 0x01 then .ok (.setkey data)
  else if op = 0x02 then .ok (.setiv data)
  else if op = 0x03 then (if len = 0x00 then .ok .next else .error (.reservedLength op len))
  else .error (.reservedOp op)

/-- Read one command from the front of a byte sequence and return it with the bytes after its frame. The header
alone fixes the frame's length, 2 + LEN bytes (R51, R53). -/
def decode : List Byte → Except DecodeError (Instr × List Byte)
  | op :: len :: data =>
    if data.length < len.toNat then .error .truncated
    else
      match decodeFrame op len (data.take len.toNat) with
      | .ok i => .ok (i, data.drop len.toNat)
      | .error e => .error e
  | _ => .error .truncated

/-- The frame of a command (R52, R53): OP, LEN, then the payload. It is the command's frame when the command is
well formed; the LEN byte of a longer payload wraps (notes/assumptions/12.md). -/
def encode (i : Instr) : List Byte :=
  i.opcode :: BitVec.ofNat 8 i.payload.length :: i.payload

/-- Byte `j` of a number whose byte 0 is the least significant: how spec/opcode_table.json numbers a frame's bits. -/
def tableByte (w j : Nat) : Byte :=
  BitVec.ofNat 8 (w / 2 ^ (8 * j))

/-- The frame whose first `nbits` bits are `w`, in the opcode table's numbering, every later bit 0. Its length is
what its own LEN byte says (R51). -/
def frameOfTableWord (nbits w : Nat) : List Byte :=
  let v := w % 2 ^ nbits
  (List.range (2 + (tableByte v 1).toNat)).map (tableByte v)

/-- The command the decoder reads from a frame given as an opcode-table word (notes/assumptions/5.md). -/
def decodeTableWord (nbits w : Nat) : Option Instr :=
  match decode (frameOfTableWord nbits w) with
  | .ok (i, _) => some i
  | .error _ => none

end Sys2Proof
end

