-- ==== Sys2Proof/Machine/Port.lean ====
section
/-! DEFINITION. Taking the next command from the port: how many bytes it has (30_encoding.md R51, R53), and where a
hardware reset lands among them (70_reset_and_hazards.md R140, R142). -/

namespace Sys2Proof.Machine

/-- What the port brings next. -/
inductive Arrival where
  /-- No whole frame has crossed yet: the engine waits (70_reset_and_hazards.md R141). -/
  | waiting
  /-- A hardware reset, before any frame was whole; a part of a frame that had crossed is gone (the model's deduction,
  notes/assumptions/4.md). -/
  | reset (rest : List PortEvent)
  /-- A whole frame, whose command runs to completion (70_reset_and_hazards.md R146). -/
  | frame (bytes : List Byte) (rest : List PortEvent)
  /-- A whole frame, whose command a hardware reset ends without a response (70_reset_and_hazards.md R142). -/
  | interrupted (bytes : List Byte) (rest : List PortEvent)
  deriving DecidableEq, Repr

/-- Take `n` more payload bytes after the bytes already taken, which are held last byte first. -/
def takePayload : Nat → List Byte → List PortEvent → Arrival
  | 0, taken, .resetDuringCommand :: es => .interrupted taken.reverse es
  | 0, taken, es => .frame taken.reverse es
  | _ + 1, _, [] => .waiting
  | n + 1, taken, .byte b :: es => takePayload n (b :: taken) es
  | _ + 1, _, .hardwareReset :: es => .reset es
  | _ + 1, _, .resetDuringCommand :: es => .reset es

/-- The next arrival: the two header bytes, then as many payload bytes as LEN says (30_encoding.md R51). -/
def nextArrival : List PortEvent → Arrival
  | [] => .waiting
  | .hardwareReset :: es => .reset es
  | .resetDuringCommand :: es => .reset es
  | .byte _ :: [] => .waiting
  | .byte _ :: .hardwareReset :: es => .reset es
  | .byte _ :: .resetDuringCommand :: es => .reset es
  | .byte op :: .byte len :: es => takePayload len.toNat [len, op] es

/-- The step's answer to bytes that are no command: a reserved frame has no meaning and is refused by name
(30_encoding.md R58); a frame that has not wholly crossed is waited for. -/
def rejectFrame (s : State) : DecodeError → Host.Outcome State Fault Refusal
  | .truncated => .next s
  | .reservedOp op => .refused (.reservedOp op)
  | .reservedLength op len => .refused (.reservedLength op len)

end Sys2Proof.Machine
end

