-- ==== Sys2Proof/Machine/Step.lean ====
section
/-! DEFINITION. One step of the machine: take the next command from the port and run it. -/

namespace Sys2Proof.Machine

/-- One step (70_reset_and_hazards.md R141, R146): with no whole frame at the port the engine waits and nothing
changes; a hardware reset gives the reset registers and no response (R140); a whole frame is decoded and its command
runs; a command that a hardware reset interrupts leaves the reset registers and no response (R142); a reserved frame
is refused (30_encoding.md R58). -/
def step (s : State) : Host.Outcome State Fault Refusal :=
  match nextArrival s.input with
  | .waiting => .next s
  | .reset rest => .next (s.withInput rest).hardwareReset
  | .frame bytes rest =>
    match decode bytes with
    | .ok (i, _) => exec i (s.withInput rest)
    | .error e => rejectFrame s e
  | .interrupted bytes rest =>
    match decode bytes with
    | .ok _ => .next (s.withInput rest).hardwareReset
    | .error e => rejectFrame s e

/-- The state with one frame, given as an opcode-table word, as all the port brings: `step` takes and runs exactly
it (notes/assumptions/5.md). Nothing but the port's input changes. -/
def State.withFetchWord (s : State) (nbits w : Nat) : State :=
  s.withInput ((frameOfTableWord nbits w).map .byte)

end Sys2Proof.Machine
end

