-- ==== Sys2Proof/Machine/Assembler.lean ====
section
/-! DEFINITION. The assembler syntax and the pseudo-instructions of 30_encoding.md R60 and R61, which 00_scope.md
section 3 puts in scope. The engine never sees them: they stand for how the host's frames are written. A text is a
list of characters. What R60 does not fix of it is in notes/assumptions/15.md. -/

namespace Sys2Proof.Machine

/-- One line of a program (R60, R61). -/
inductive AsmLine where
  /-- RESET, SETKEY, SETIV or NEXT (R60). -/
  | command (i : Instr)
  /-- `NEXTN n` (R61). -/
  | nextn (n : Nat)
  /-- `REKEY <hex>` (R61). -/
  | rekey (key : List Byte)
  /-- `SETKEYINT <32 hex digits>`, the bytes in the order printed, KEY[15] first (R61). -/
  | setkeyint (printed : Key)
  /-- `SETIVINT <16 hex digits>`, the bytes in the order printed, IV[7] first (R61). -/
  | setivint (printed : Iv)
  deriving DecidableEq, Repr

/-- The commands a line stands for (R61). -/
def AsmLine.expand : AsmLine → List Instr
  | .command i => [i]
  | .nextn n => List.replicate n .next
  | .rekey key => [.setkey key]
  | .setkeyint printed => [.setkey printed.toList.reverse]
  | .setivint printed => [.setiv printed.toList.reverse]

/-- The frame bytes of a program, in order (R52 to R54, R60). -/
def assembleLines (lines : List AsmLine) : List Byte :=
  (lines.flatMap AsmLine.expand).flatMap encode

/-- The value of a hex digit. -/
def hexDigit (ch : Char) : Option Nat :=
  let v := ch.toNat
  if 48 ≤ v ∧ v ≤ 57 then some (v - 48)
  else if 65 ≤ v ∧ v ≤ 70 then some (v - 55)
  else if 97 ≤ v ∧ v ≤ 102 then some (v - 87)
  else none

/-- Bytes as pairs of hex digits in index order, spaces allowed between pairs (R60). -/
def parseHex : List Char → Option (List Byte)
  | [] => some []
  | [' '] => some []
  | [_] => none
  | ' ' :: b :: cs => parseHex (b :: cs)
  | a :: b :: cs =>
    match hexDigit a, hexDigit b, parseHex cs with
    | some hi, some lo, some bytes => some (BitVec.ofNat 8 (16 * hi + lo) :: bytes)
    | _, _, _ => none

/-- A payload as a command line writes it: at most MAXLEN bytes, 510 hex digits (R55, R60). -/
def parsePayload (cs : List Char) : Option (List Byte) :=
  match parseHex cs with
  | some bytes => if bytes.length ≤ Config.maxLen then some bytes else none
  | none => none

/-- The digits of a decimal number, most significant first, after the value read so far. -/
def parseDigits : Nat → List Char → Option Nat
  | value, [] => some value
  | value, d :: cs =>
    if 48 ≤ d.toNat ∧ d.toNat ≤ 57 then parseDigits (10 * value + (d.toNat - 48)) cs else none

/-- A decimal number of at least one digit, with spaces around it dropped. -/
def parseNumber (cs : List Char) : Option Nat :=
  match ((cs.dropWhile (· = ' ')).reverse.dropWhile (· = ' ')).reverse with
  | [] => none
  | ds => parseDigits 0 ds

/-- The line of a mnemonic with the text after it (R60, R61). -/
def parseCommand (mnemonic : List Char) (operand : List Char) : Option AsmLine :=
  if mnemonic = ['R', 'E', 'S', 'E', 'T'] then
    if operand.all (· = ' ') then some (.command .reset) else none
  else if mnemonic = ['N', 'E', 'X', 'T'] then
    if operand.all (· = ' ') then some (.command .next) else none
  else if mnemonic = ['S', 'E', 'T', 'K', 'E', 'Y'] then
    (parsePayload operand).map fun key => .command (.setkey key)
  else if mnemonic = ['S', 'E', 'T', 'I', 'V'] then
    (parsePayload operand).map fun iv => .command (.setiv iv)
  else if mnemonic = ['N', 'E', 'X', 'T', 'N'] then
    (parseNumber operand).map .nextn
  else if mnemonic = ['R', 'E', 'K', 'E', 'Y'] then
    (parsePayload operand).map .rekey
  else if mnemonic = ['S', 'E', 'T', 'K', 'E', 'Y', 'I', 'N', 'T'] then
    ((parseHex operand).bind (exactBytes Config.keyLen)).map .setkeyint
  else if mnemonic = ['S', 'E', 'T', 'I', 'V', 'I', 'N', 'T'] then
    ((parseHex operand).bind (exactBytes Config.ivLen)).map .setivint
  else none

/-- One line of text: a comment starts at `;`, an empty line stands for nothing, anything else that is no command
is no program (R60). -/
def parseLine (cs : List Char) : Option (List AsmLine) :=
  let code := (cs.takeWhile (· ≠ ';')).dropWhile (· = ' ')
  match code with
  | [] => some []
  | _ =>
    match parseCommand (code.takeWhile (· ≠ ' ')) (code.dropWhile (· ≠ ' ')) with
    | some line => some [line]
    | none => none

/-- The lines of a text. -/
def splitLines : List Char → List (List Char)
  | [] => [[]]
  | ch :: cs =>
    if ch = '\n' then [] :: splitLines cs
    else
      match splitLines cs with
      | line :: lines => (ch :: line) :: lines
      | [] => [[ch]]

/-- The lines of a program, if every line is one. -/
def parseLines : List (List Char) → Option (List AsmLine)
  | [] => some []
  | line :: lines =>
    match parseLine line, parseLines lines with
    | some here, some there => some (here ++ there)
    | _, _ => none

/-- The frame bytes of a program text (R60). -/
def assemble (text : List Char) : Option (List Byte) :=
  (parseLines (splitLines text)).map assembleLines

end Sys2Proof.Machine
end

