-- ==== Sys2Proof/Safety.lean ====
section
/-! DEFINITION. The terms the statements use: sequences of commands, what the port carries for them, the invariants,
and the integer and alternative forms that the spec gives beside its definitions. Nothing here runs in a step. -/

namespace Sys2Proof.Machine

/-- The effect of a sequence of commands: their transition functions composed left to right (20_memory.md R41). -/
def execAll : List Instr → State → Host.Outcome State Fault Refusal
  | [], s => .next s
  | i :: is, s =>
    match exec i s with
    | .next t => execAll is t
    | .fault r => .fault r
    | .refused r => .refused r

/-- Bytes as the port brings them. -/
def bytesAsEvents (bytes : List Byte) : List PortEvent := bytes.map .byte

/-- What the host presents for a sequence of commands: their frames one after the other (30_encoding.md R53). -/
def present (is : List Instr) : List PortEvent := bytesAsEvents (is.flatMap encode)

/-- The invariant of 10_state.md R19: while keyReady is 0 the master snapshot is zero. -/
abbrev State.EmptyHasNoSnapshot (s : State) : Prop :=
  s.keyReady = false → s.engine.master = RegisterSet.zero

/-- What the lifecycle of 10_state.md R18 allows the registers to hold. Empty: no snapshot, and a working state some
number of NEXTSTATE after zero. Keyed: the snapshot is some key's, and the working state is some number of NEXTSTATE
after the snapshot itself or after the setup of some IV from it (42_iv_schedule.md R96, R97). -/
def State.FollowsLifecycle (s : State) : Prop :=
  (s.keyReady = false ∧ s.engine.master = RegisterSet.zero ∧
    ∃ n, s.engine.work = nextStates n RegisterSet.zero) ∨
  (s.keyReady = true ∧ (∃ key, s.engine.master = (keySetup key).master) ∧
    ∃ n, s.engine.work = nextStates n s.engine.master ∨
      ∃ iv, s.engine.work = nextStates n (ivSetup s.engine.master iv))

/-- The state with another master snapshot and everything else the same. -/
def State.withMaster (s : State) (m : RegisterSet) : State :=
  { s with engine := { s.engine with master := m } }

/-- The little-endian integer of a byte string: the sum over j of byte j times 2^(8j) (20_memory.md R35). -/
def littleEndian : List Byte → Nat
  | [] => 0
  | b :: bs => b.toNat + 256 * littleEndian bs

/-- The eight counters as one 256-bit number, the sum over i of c[i] times 2^(32i) (40_state_update.md R71). -/
def counterNumber (counters : Lanes) : Nat :=
  counters[0].toNat + 2 ^ 32 * counters[1].toNat + 2 ^ 64 * counters[2].toNat + 2 ^ 96 * counters[3].toNat + 2 ^ 128 * counters[4].toNat +
    2 ^ 160 * counters[5].toNat + 2 ^ 192 * counters[6].toNat + 2 ^ 224 * counters[7].toNat

/-- The form of g that uses only 32-bit operations (93_implementation_defined.md G2), on u = (x + c) mod 2^32. -/
def gSingleWord (u : Word) : Word :=
  let a : Word := u &&& 0xFFFF
  let b : Word := u >>> 16
  let h : Word := ((((a * a) >>> 17) + a * b) >>> 15) + b * b
  h ^^^ (u * u)

end Sys2Proof.Machine
end

