-- ==== Sys2Proof/Certificates/Slice0/Obligations.lean ====
section
/-! DEFINITION. The statements for the provers, in the order of the spec's files. Each docstring names the rule it
formalises; where it says "decision D<n>" the rule is marked so by the spec and a log entry names it. -/

open Sys2Proof Sys2Proof.Machine

/-! ## The reset state (10_state.md) -/

/-- 10_state.md R22 and 70_reset_and_hazards.md R140: every register is zero after reset and the port is idle.
That the carry bits and power-on are covered is decision D6 and D7 (notes/assumptions/6.md). -/
def Obligations.ResetStateIsZero : Prop :=
  (∀ i : Fin 8, State.reset.x[i] = 0 ∧ State.reset.c[i] = 0 ∧ State.reset.mx[i] = 0 ∧ State.reset.mc[i] = 0) ∧
  State.reset.carry = false ∧ State.reset.mcarry = false ∧ State.reset.keyReady = false ∧
  step State.reset = .next State.reset

/-! ## The state update (40_state_update.md) -/

/-- R70: the eight increments, which repeat with period 3. -/
def Obligations.IncrementTable : Prop :=
  increments.toList = [0x4D34D34D, 0xD34D34D3, 0x34D34D34, 0x4D34D34D, 0xD34D34D3, 0x34D34D34, 0x4D34D34D,
    0xD34D34D3] ∧
  ∀ i : Fin 8, increments[i] = increments[i.val % 3]

/-- R71: with b the carry into each lane, b into lane 0 the stored carry, each lane's exact sum gives the new counter
mod 2^32 and the carry into the next lane, and the carry out of lane 7 is stored. -/
def Obligations.CtrUpdRipplesTheCarry : Prop :=
  ∀ (cs : Lanes) (carry : Bool), ∃ b : Fin 9 → Nat,
    b 0 = carry.toNat ∧
    (∀ i : Fin 8,
      let t := cs[i].toNat + increments[i].toNat + b i.castSucc
      (ctrUpd cs carry).1[i].toNat = t % 2 ^ 32 ∧ b i.succ = if 2 ^ 32 ≤ t then 1 else 0) ∧
    b 8 = (ctrUpd cs carry).2.toNat

/-- The equivalent form beside R71: CTRUPD is one 256-bit addition with carry in and carry out. -/
def Obligations.CtrUpdIsOne256BitAddition : Prop :=
  ∀ (cs : Lanes) (carry : Bool),
    counterNumber (ctrUpd cs carry).1 + 2 ^ 256 * (ctrUpd cs carry).2.toNat =
      counterNumber cs +
        0xD34D34D34D34D34D34D34D34D34D34D34D34D34D34D34D34D34D34D34D34D34D + carry.toNat

/-- R72: g is the low half of the exact square of (x + c) mod 2^32, XOR its high half. -/
def Obligations.GSquaresTheReducedSum : Prop :=
  ∀ x c : Word,
    let u := (x.toNat + c.toNat) % 2 ^ 32
    (gFunction x c).toNat = (u * u % 2 ^ 32) ^^^ (u * u / 2 ^ 32)

/-- R78 with 93_implementation_defined.md G2: the form of g that uses only 32-bit operations gives the same value for
every input. -/
def Obligations.GSingleWordFormAgrees : Prop :=
  ∀ x c : Word, gSingleWord (x + c) = gFunction x c

/-- R73: the eight new state words, each the sum mod 2^32 of three g values, two of them rotated as the spec's rotl
says. -/
def Obligations.DiffuseSumsRotatedLanes : Prop :=
  ∀ g : Lanes,
    let v : Fin 8 → Nat := fun i => g[i].toNat
    let rot : Fin 8 → Nat → Nat := fun i n => v i * 2 ^ n % 2 ^ 32 + v i / 2 ^ (32 - n)
    (diffuse g)[0].toNat = (v 0 + rot 7 16 + rot 6 16) % 2 ^ 32 ∧
    (diffuse g)[1].toNat = (v 1 + rot 0 8 + v 7) % 2 ^ 32 ∧
    (diffuse g)[2].toNat = (v 2 + rot 1 16 + rot 0 16) % 2 ^ 32 ∧
    (diffuse g)[3].toNat = (v 3 + rot 2 8 + v 1) % 2 ^ 32 ∧
    (diffuse g)[4].toNat = (v 4 + rot 3 16 + rot 2 16) % 2 ^ 32 ∧
    (diffuse g)[5].toNat = (v 5 + rot 4 8 + v 3) % 2 ^ 32 ∧
    (diffuse g)[6].toNat = (v 6 + rot 5 16 + rot 4 16) % 2 ^ 32 ∧
    (diffuse g)[7].toNat = (v 7 + rot 6 8 + v 5) % 2 ^ 32

/-- R74: CTRUPD first, then G on every lane with the new counter and the old state word, then DIFFUSE. -/
def Obligations.NextStateOrder : Prop :=
  ∀ w : RegisterSet, ∃ g : Lanes,
    (nextState w).c = (ctrUpd w.c w.carry).1 ∧ (nextState w).carry = (ctrUpd w.c w.carry).2 ∧
    (∀ i : Fin 8, g[i] = gFunction w.x[i] (nextState w).c[i]) ∧ (nextState w).x = diffuse g

/-- R74, corner case (a): the counter system runs on its own, whatever the state words are. -/
def Obligations.CounterSystemIgnoresStateWords : Prop :=
  ∀ (n : Nat) (w w' : RegisterSet), w.c = w'.c → w.carry = w'.carry →
    (nextStates n w).c = (nextStates n w').c ∧ (nextStates n w).carry = (nextStates n w').carry

/-- R79: a new state word depends, besides the counters, on the old state words of its own lane and the two lanes
before it only. -/
def Obligations.NewStateWordDependsOnThreeLanes : Prop :=
  ∀ (w w' : RegisterSet) (i : Fin 8), w.c = w'.c → w.carry = w'.carry →
    w.x[i] = w'.x[i] → w.x[i - 1] = w'.x[i - 1] → w.x[i - 2] = w'.x[i - 2] →
    (nextState w).x[i] = (nextState w').x[i]

/-! ## Buffers (20_memory.md) -/

/-- 20_memory.md R33: the IV sub-words, low byte first. -/
def Obligations.IvUnitsAreLittleEndian : Prop :=
  ∀ (iv : Vector Byte 8) (i : Fin 4),
    (ivUnits iv)[i].toNat = iv[2 * i.val].toNat + 256 * iv[2 * i.val + 1].toNat

/-- 20_memory.md R35: each buffer is the little-endian byte string of one integer, of which the units are 16-bit
slices. -/
def Obligations.BuffersAreLittleEndianIntegers : Prop :=
  (∀ (key : Vector Byte 16) (i : Fin 8),
    (subkeys key)[i].toNat = littleEndian key.toList / 2 ^ (16 * i.val) % 2 ^ 16) ∧
  (∀ (iv : Vector Byte 8) (i : Fin 4),
    (ivUnits iv)[i].toNat = littleEndian iv.toList / 2 ^ (16 * i.val) % 2 ^ 16) ∧
  (∀ (w : Vector Half 8) (n : Fin 8),
    w[n].toNat = littleEndian (serialize w).toList / 2 ^ (16 * n.val) % 2 ^ 16)

/-! ## SETKEY (41_key_schedule.md) -/

/-- R82 with 20_memory.md R32: the initial load, by the table of pairs (a, b), from the subkeys
k[j] = KEY[2j] + 256 * KEY[2j + 1]. -/
def Obligations.KeyLoadFollowsPairTable : Prop :=
  ∀ key : Vector Byte 16,
    let k : Fin 8 → Nat := fun j => key[2 * j.val].toNat + 256 * key[2 * j.val + 1].toNat
    let px : Vector (Fin 8 × Fin 8) 8 := #v[(1, 0), (6, 5), (3, 2), (0, 7), (5, 4), (2, 1), (7, 6), (4, 3)]
    let pc : Vector (Fin 8 × Fin 8) 8 := #v[(4, 5), (1, 2), (6, 7), (3, 4), (0, 1), (5, 6), (2, 3), (7, 0)]
    (∀ j : Fin 8, (subkeys key)[j].toNat = k j) ∧
    (∀ i : Fin 8, (keyLoad key).x[i].toNat = k px[i].1 * 2 ^ 16 + k px[i].2) ∧
    (∀ i : Fin 8, (keyLoad key).c[i].toNat = k pc[i].1 * 2 ^ 16 + k pc[i].2) ∧
    (keyLoad key).carry = false

/-- R83, R84, R85: SETKEY with 16 key bytes completes in every state. With w the state four NEXTSTATE after the initial
load, the new working state is w with each counter XORed with the state word four lanes away, the snapshot is a copy
of it, and keyReady is 1. -/
def Obligations.SetkeyResult : Prop :=
  ∀ (key : Vector Byte 16) (s : State),
    let w := nextState (nextState (nextState (nextState (keyLoad key))))
    let w' : RegisterSet :=
      { x := w.x
        c := #v[w.c[0] ^^^ w.x[4], w.c[1] ^^^ w.x[5], w.c[2] ^^^ w.x[6], w.c[3] ^^^ w.x[7],
          w.c[4] ^^^ w.x[0], w.c[5] ^^^ w.x[1], w.c[6] ^^^ w.x[2], w.c[7] ^^^ w.x[3]]
        carry := w.carry }
    exec (.setkey key.toList) s =
      .next { engine := { work := w', master := w', keyReady := true }, input := s.input,
              responses := s.responses ++ [.ok] }

/-- R81: at every length but 16 SETKEY ends with InvalidLength and every register is what it was. -/
def Obligations.SetkeyWrongLength : Prop :=
  ∀ (key : List Byte) (s : State), key.length ≠ 16 →
    exec (.setkey key) s =
      .next { engine := s.engine, input := s.input, responses := s.responses ++ [.error .invalidLength] }

/-- R87 and 44_reset_command.md R112: a successful SETKEY leaves the same registers from any two states, the same as
after RESET, and the same when it is issued twice. -/
def Obligations.SetkeyForgetsHistory : Prop :=
  ∀ (key : Vector Byte 16) (s s' : State), ∃ t t' t'' t3,
    exec (.setkey key.toList) s = .next t ∧ exec (.setkey key.toList) s' = .next t' ∧
    execAll [.reset, .setkey key.toList] s = .next t'' ∧
    execAll [.setkey key.toList, .setkey key.toList] s = .next t3 ∧
    t.engine = t'.engine ∧ t''.engine = t.engine ∧ t3.engine = t.engine

/-! ## SETIV (42_iv_schedule.md) -/

/-- R93: the word XORed into each counter is siv[a] : siv[b] by the table of pairs; x and carry are not changed.
That the first index of a pair is the high half is decision D10 (notes/assumptions/8.md). -/
def Obligations.IvInjectionFollowsPairTable : Prop :=
  ∀ (iv : Vector Byte 8) (w : RegisterSet),
    let siv : Fin 4 → Nat := fun j => iv[2 * j.val].toNat + 256 * iv[2 * j.val + 1].toNat
    let p : Vector (Fin 4 × Fin 4) 8 := #v[(1, 0), (3, 1), (3, 2), (2, 0), (1, 0), (3, 1), (3, 2), (2, 0)]
    (∀ i : Fin 8, (injectIv iv w).c[i].toNat =
      w.c[i].toNat ^^^ (siv p[i].1 * 2 ^ 16 + siv p[i].2)) ∧
    (injectIv iv w).x = w.x ∧ (injectIv iv w).carry = w.carry

/-- R92, R94, R95: SETIV with 8 bytes on a Keyed engine completes. The working state is the master snapshot with the IV
injected, four NEXTSTATE on; the snapshot and keyReady are unchanged. -/
def Obligations.SetivResult : Prop :=
  ∀ (iv : Vector Byte 8) (s : State), s.keyReady = true →
    let w : RegisterSet := { x := s.mx, c := s.mc, carry := s.mcarry }
    exec (.setiv iv.toList) s =
      .next { engine := { work := nextState (nextState (nextState (nextState (injectIv iv w))))
                          master := w, keyReady := true }
              input := s.input, responses := s.responses ++ [.ok] }

/-- R91 with 60_exceptions.md R122, R124: on an Empty engine SETIV ends with KeyNotSet at every length, and every
register is what it was. That KeyNotSet wins over a wrong length is decision D5 (notes/assumptions/7.md). -/
def Obligations.SetivKeyNotSet : Prop :=
  ∀ (iv : List Byte) (s : State), s.keyReady = false →
    exec (.setiv iv) s =
      .next { engine := s.engine, input := s.input, responses := s.responses ++ [.error .keyNotSet] }

/-- R95: SETIV never changes mx, mc, mcarry or keyReady, whether it succeeds or fails. -/
def Obligations.SetivKeepsSnapshot : Prop :=
  ∀ (iv : List Byte) (s : State), ∃ t, exec (.setiv iv) s = .next t ∧
    t.mx = s.mx ∧ t.mc = s.mc ∧ t.mcarry = s.mcarry ∧ t.keyReady = s.keyReady

/-- R97: SETIV's result depends on the snapshot and the IV only, so that it rewinds the keystream: in a Keyed state the
block after SETIV V1 comes again after SETIV V2, SETIV V1. -/
def Obligations.SetivRestartsTheKeystream : Prop :=
  ∀ (v1 v2 : Vector Byte 8) (s : State), s.keyReady = true → ∃ t block,
    execAll [.setiv v1.toList, .next, .setiv v2.toList, .setiv v1.toList, .next] s = .next t ∧
    t.responses = s.responses ++ [.ok, .block block, .ok, .ok, .block block] ∧
    ∀ w : RegisterSet, ∃ u u',
      exec (.setiv v1.toList) s = .next u ∧
      exec (.setiv v1.toList) { s with engine := { s.engine with work := w } } = .next u' ∧
      u'.engine = u.engine

/-- R90, corner case, and 95_test_vectors.md section 5.1: SETIV with the all-zero IV is four NEXTSTATE from the
snapshot, not the no-IV start. -/
def Obligations.ZeroIvIsFourNextStates : Prop :=
  ∀ s : State, s.keyReady = true → ∃ t,
    exec (.setiv (List.replicate 8 0)) s = .next t ∧
    t.engine.work = nextState (nextState (nextState (nextState s.engine.master)))

/-! ## NEXT (43_keystream_extract.md) -/

/-- R101, R102, R105 with 20_memory.md R34: NEXT completes in every state. The working state advances by one NEXTSTATE,
nothing else changes, and the block's word n, low byte first, is the low half of one NEW state word XOR the high half
of another, by the extraction table. -/
def Obligations.NextResult : Prop :=
  ∀ s : State,
    let x := (nextState s.engine.work).x
    let lo : Vector (Fin 8) 8 := #v[0, 3, 2, 5, 4, 7, 6, 1]
    let hi : Vector (Fin 8) 8 := #v[5, 0, 7, 2, 1, 4, 3, 6]
    ∃ out : Vector Byte 16,
      exec .next s =
        .next { engine := { work := nextState s.engine.work, master := s.engine.master, keyReady := s.keyReady }
                input := s.input, responses := s.responses ++ [.block out] } ∧
      ∀ n : Fin 8,
        let w := (x[lo[n]].toNat % 2 ^ 16) ^^^ (x[hi[n]].toNat / 2 ^ 16)
        out[2 * n.val].toNat = w % 2 ^ 8 ∧ out[2 * n.val + 1].toNat = w / 2 ^ 8

/-- R104: the block of NEXT number n is the block of the state n NEXTSTATE on, each NEXT advancing exactly once. -/
def Obligations.NextSequenceIsTheKeystream : Prop :=
  ∀ (m : Nat) (s : State), ∃ t, execAll (List.replicate m .next) s = .next t ∧
    t.engine.work = nextStates m s.engine.work ∧
    t.responses = s.responses ++
      (List.range m).map fun n => .block (keystreamBlock (nextStates (n + 1) s.engine.work))

/-- R103: NEXT does not read keyReady, nor the snapshot: the block and the new working state are the same whatever they
hold. That NEXT runs on an Empty engine is decision D9 (notes/assumptions/9.md). -/
def Obligations.NextIgnoresKeyReady : Prop :=
  ∀ (s : State) (master : RegisterSet) (keyReady : Bool), ∃ t t',
    exec .next s = .next t ∧
    exec .next { s with engine := { work := s.engine.work, master := master, keyReady := keyReady } } = .next t' ∧
    t'.engine.work = t.engine.work ∧ t'.responses = t.responses

/-! ## RESET (44_reset_command.md) -/

/-- R110, R113: RESET completes in every state and leaves the reset registers, whatever it found. That mcarry is
cleared is decision D6 (notes/assumptions/6.md). -/
def Obligations.ResetCommandResult : Prop :=
  ∀ s : State,
    exec .reset s =
      .next { engine := State.reset.engine, input := s.input, responses := s.responses ++ [.ok] }

/-! ## Errors and the whole machine (60_exceptions.md, 10_state.md, 20_memory.md) -/

/-- 60_exceptions.md R121: InvalidLength is the answer of SETKEY exactly when its payload is not 16 bytes, and of SETIV
on a Keyed engine exactly when its payload is not 8 bytes; the content plays no part. -/
def Obligations.InvalidLengthExactlyAtWrongLength : Prop :=
  (∀ (key : List Byte) (s : State), ∃ t r, exec (.setkey key) s = .next t ∧
    t.responses = s.responses ++ [r] ∧ (r = .error .invalidLength ↔ key.length ≠ 16)) ∧
  (∀ (iv : List Byte) (s : State), s.keyReady = true → ∃ t r, exec (.setiv iv) s = .next t ∧
    t.responses = s.responses ++ [r] ∧ (r = .error .invalidLength ↔ iv.length ≠ 8))

/-- 60_exceptions.md R123: a command that ends in an error writes no register; its only effect is its response, whose
one byte is the error's status. -/
def Obligations.ErrorsLeaveNoTrace : Prop :=
  ∀ (i : Instr) (s t : State) (e : EngineError), exec i s = .next t →
    t.responses = s.responses ++ [.error e] →
    t.engine = s.engine ∧ t.input = s.input ∧ (Response.error e).bytes = [e.status]

/-- 60_exceptions.md R128: no command can fail but by the input checks. RESET and NEXT never answer an error, SETKEY only
when its length check fails, SETIV only when one of its two checks fails; no step ends in a fault. -/
def Obligations.NoFailureBeyondTheChecks : Prop :=
  (∀ (i : Instr) (s : State), ∃ t r, exec i s = .next t ∧ t.responses = s.responses ++ [r] ∧
    ∀ e, r = .error e → (∃ key, i = .setkey key ∧ key.length ≠ 16) ∨
      (∃ iv, i = .setiv iv ∧ (s.keyReady = false ∨ iv.length ≠ 8))) ∧
  ∀ (s : State) (f : Fault), step s ≠ .fault f

/-- 30_encoding.md R56: every command gets exactly one response, and the response carries a block if and only if the
command is NEXT. Decisions D3 and D24 (notes/assumptions/16.md). -/
def Obligations.OneResponsePerCommand : Prop :=
  ∀ (i : Instr) (s : State), ∃ t r, exec i s = .next t ∧ t.input = s.input ∧
    t.responses = s.responses ++ [r] ∧ ((∃ out, r = .block out) ↔ i = .next)

/-- 10_state.md R18: the lifecycle stage after every command, by the transition table, and after a hardware reset,
whenever it arrives (decision D17, notes/assumptions/4.md). -/
def Obligations.LifecycleTransitions : Prop :=
  (∀ s : State, ∃ t, exec .reset s = .next t ∧ t.keyReady = false) ∧
  (∀ (key : List Byte) (s : State), ∃ t, exec (.setkey key) s = .next t ∧
    t.keyReady = if key.length = 16 then true else s.keyReady) ∧
  (∀ (iv : List Byte) (s : State), ∃ t, exec (.setiv iv) s = .next t ∧ t.keyReady = s.keyReady) ∧
  (∀ s : State, ∃ t, exec .next s = .next t ∧ t.keyReady = s.keyReady) ∧
  (∀ (s : State) (bytes : List Byte) (rest : List PortEvent) (i : Instr),
    (decode bytes = .error .truncated ∧ s.input = bytesAsEvents bytes ++ .hardwareReset :: rest) ∨
      (decode bytes = .ok (i, []) ∧ s.input = bytesAsEvents bytes ++ .resetDuringCommand :: rest) →
    ∃ t, step s = .next t ∧ t.keyReady = false)

/-- 10_state.md R15: only a successful SETKEY, at its end, and RESET, to zero, write the master snapshot, and only SETIV
reads it: with any other snapshot in its place every other command gives the same working state, keyReady and
responses. -/
def Obligations.SnapshotAccess : Prop :=
  (∀ (i : Instr) (s t : State), exec i s = .next t → t.engine.master = s.engine.master ∨
    (i = .reset ∧ t.engine.master = RegisterSet.zero) ∨
    ∃ key, i = .setkey key ∧ key.length = 16 ∧ t.engine.master = t.engine.work) ∧
  (∀ (i : Instr) (s : State) (m : RegisterSet), (∀ iv, i ≠ .setiv iv) → ∃ t t',
    exec i s = .next t ∧ exec i (s.withMaster m) = .next t' ∧ t'.engine.work = t.engine.work ∧
    t'.keyReady = t.keyReady ∧ t'.responses = t.responses)

/-- 10_state.md R27, the write columns: what each command leaves unchanged. No command touches the port's input or an
earlier response; NEXT writes x, c, carry only; SETIV, when both its checks pass, x, c, carry only, and otherwise
nothing; SETKEY with a wrong length nothing; RESET and a successful SETKEY may write every register. -/
def Obligations.CommandFrames : Prop :=
  ∀ (i : Instr) (s t : State), exec i s = .next t →
    t.input = s.input ∧ s.responses <+: t.responses ∧
    match i with
    | .reset => True
    | .setkey key => key.length ≠ 16 → t.engine = s.engine
    | .setiv iv => t.engine.master = s.engine.master ∧ t.keyReady = s.keyReady ∧
        (s.keyReady = false ∨ iv.length ≠ 8 → t.engine.work = s.engine.work)
    | .next => t.engine.master = s.engine.master ∧ t.keyReady = s.keyReady

/-- 10_state.md R23: on an Empty engine the master snapshot cannot be observed: whatever it holds, every command sequence
gets the same responses. -/
def Obligations.SnapshotHiddenWhileEmpty : Prop :=
  ∀ (is : List Instr) (s : State) (m : RegisterSet), s.keyReady = false → ∃ t t',
    execAll is s = .next t ∧ execAll is (s.withMaster m) = .next t' ∧ t'.responses = t.responses

/-- 20_memory.md R42(b): the blocks after SETKEY and SETIV depend on the key, the IV and their number only, never on the
state before; the registers at the end neither. -/
def Obligations.KeystreamDependsOnKeyAndIv : Prop :=
  ∀ (key : Vector Byte 16) (iv : Vector Byte 8) (m : Nat) (s s' : State), ∃ t t' rs,
    execAll (.setkey key.toList :: .setiv iv.toList :: List.replicate m .next) s = .next t ∧
    execAll (.setkey key.toList :: .setiv iv.toList :: List.replicate m .next) s' = .next t' ∧
    t.responses = s.responses ++ rs ∧ t'.responses = s'.responses ++ rs ∧ rs.length = m + 2 ∧
    t.engine = t'.engine

/-- 42_iv_schedule.md R96, the no-IV path: NEXT after SETKEY without a SETIV gives the blocks generated from the master
snapshot itself. -/
def Obligations.NoIvKeystreamStartsAtSnapshot : Prop :=
  ∀ (key : Vector Byte 16) (m : Nat) (s : State), ∃ t,
    execAll (.setkey key.toList :: List.replicate m .next) s = .next t ∧
    t.engine.work = nextStates m t.engine.master ∧
    t.responses = s.responses ++ .ok ::
      (List.range m).map fun n => .block (keystreamBlock (nextStates (n + 1) t.engine.master))

/-- 20_memory.md R41: the machine's run over the frames of a command sequence is the left-to-right composition of the
commands' transition functions. That commands are atomic and ordered so is decision D12 and D13, and the frames are D2
(notes/assumptions/16.md). -/
def Obligations.RunComposesCommands : Prop :=
  ∀ (is : List Instr) (s : State), (∀ i ∈ is, i.wf = true) →
    Sys2Proof.core.run is.length (s.withInput (present is)) = execAll is (s.withInput [])

/-! ## Encoding and the port (30_encoding.md, 70_reset_and_hazards.md) -/

/-- 30_encoding.md R52 to R54: every well-formed command is read back from its frame, whatever follows the frame. The
frame is decision D2 (notes/assumptions/16.md). -/
def Obligations.DecodeAfterEncode : Prop :=
  ∀ (i : Instr) (rest : List Byte), i.wf = true → decode (encode i ++ rest) = .ok (i, rest)

/-- 30_encoding.md R51 to R54: whatever bytes decode are the frame of the command read, which is well formed, and the
bytes left over. The frame is decision D2 (notes/assumptions/16.md). -/
def Obligations.EncodeAfterDecode : Prop :=
  ∀ (bytes rest : List Byte) (i : Instr), decode bytes = .ok (i, rest) →
    i.wf = true ∧ encode i ++ rest = bytes

/-- 30_encoding.md R54: the decoder reads each command exactly at the headers hdr = OP + 256 * LEN that its match and mask
select. The table is decision D2 (notes/assumptions/16.md). -/
def Obligations.DecodeFollowsHeaderTable : Prop :=
  ∀ (op len : Byte) (data : List Byte), data.length = len.toNat →
    let hdr : BitVec 16 := BitVec.ofNat 16 (op.toNat + 256 * len.toNat)
    (decode (op :: len :: data) = .ok (.reset, []) ↔ hdr &&& 0xFFFF = 0x0000) ∧
    (decode (op :: len :: data) = .ok (.setkey data, []) ↔ hdr &&& 0x00FF = 0x0001) ∧
    (decode (op :: len :: data) = .ok (.setiv data, []) ↔ hdr &&& 0x00FF = 0x0002) ∧
    (decode (op :: len :: data) = .ok (.next, []) ↔ hdr &&& 0xFFFF = 0x0003)

/-- 30_encoding.md R58: a whole frame with OP 0x04 to 0xFF, or a RESET or NEXT frame with LEN not 0, is refused by name,
whatever follows it. That a model refuses them is decision D4 (notes/assumptions/10.md). -/
def Obligations.ReservedFramesRefused : Prop :=
  ∀ (s : State) (op len : Byte) (data : List Byte) (rest : List PortEvent), data.length = len.toNat →
    s.input = bytesAsEvents (op :: len :: data) ++ rest →
    (4 ≤ op.toNat → step s = .refused (.reservedOp op)) ∧
    ((op = 0 ∨ op = 3) → len ≠ 0 → step s = .refused (.reservedLength op len))

/-- 30_encoding.md R59: a SETKEY or SETIV frame with a wrong LEN is a command, whose execution ends in an error with the
engine unchanged. The frames are decision D2 (notes/assumptions/16.md), the KeyNotSet at every length decision D5
(notes/assumptions/7.md). -/
def Obligations.WrongLengthFramesExecute : Prop :=
  ∀ (s : State) (len : Byte) (data : List Byte), data.length = len.toNat →
    (len.toNat ≠ 16 → s.input = bytesAsEvents (0x01 :: len :: data) →
      step s = .next { engine := s.engine, input := [], responses := s.responses ++ [.error .invalidLength] }) ∧
    (len.toNat ≠ 8 → s.input = bytesAsEvents (0x02 :: len :: data) →
      step s = .next { engine := s.engine, input := []
                       responses := s.responses ++
                         [.error (if s.keyReady then .invalidLength else .keyNotSet)] })

/-- 95_test_vectors.md section 8: a few frames written out from the table of 30_encoding.md R54, decision D2
(notes/assumptions/16.md). -/
def Obligations.SpecFramesDecode : Prop :=
  decode [0x00, 0x00] = .ok (.reset, []) ∧
  decode [0x01, 0x10, 0x00, 0x01, 0x02, 0x03, 0x04, 0x05, 0x06, 0x07, 0x08, 0x09, 0x0A, 0x0B, 0x0C, 0x0D, 0x0E, 0x0F] =
    .ok (.setkey [0x00, 0x01, 0x02, 0x03, 0x04, 0x05, 0x06, 0x07, 0x08, 0x09, 0x0A, 0x0B, 0x0C, 0x0D, 0x0E, 0x0F], []) ∧
  decode [0x02, 0x08, 0x59, 0x7E, 0x26, 0xC1, 0x75, 0xF5, 0x73, 0xC3] =
    .ok (.setiv [0x59, 0x7E, 0x26, 0xC1, 0x75, 0xF5, 0x73, 0xC3], []) ∧
  decode [0x03, 0x00] = .ok (.next, [])

/-- 70_reset_and_hazards.md R146 with 30_encoding.md R51: when the bytes at the port are a frame that decodes to i, and no
hardware reset interrupts the command, the step is exec of i at that state with the frame taken from the port. Decisions D2
and D12 (notes/assumptions/16.md). -/
def Obligations.StepRunsTheDecodedCommand : Prop :=
  ∀ (s : State) (bytes : List Byte) (rest : List PortEvent) (i : Instr), decode bytes = .ok (i, []) →
    s.input = bytesAsEvents bytes ++ rest → rest.head? ≠ some .resetDuringCommand →
    step s = exec i { s with input := rest }

/-- 70_reset_and_hazards.md R141: while no whole frame has crossed the port the engine waits, and nothing changes
(notes/assumptions/3.md). -/
def Obligations.StepWaitsForAWholeFrame : Prop :=
  ∀ (s : State) (bytes : List Byte), s.input = bytesAsEvents bytes → decode bytes = .error .truncated →
    step s = .next s

/-- 70_reset_and_hazards.md R140, R142: a hardware reset leaves the reset registers and gives no response, between
commands, after part of a frame, and while a command executes, whose command is then not done. Decision D7
(notes/assumptions/6.md) and, while a command executes, decision D17 (notes/assumptions/4.md). That the part of a frame
that had crossed is dropped, and that what follows the reset at the port stays, is the model's own deduction, marked
DEDUCED in notes/assumptions/4.md: no rule or decision speaks of a part of a frame. -/
def Obligations.HardwareResetResult : Prop :=
  (∀ (s : State) (bytes : List Byte) (rest : List PortEvent), decode bytes = .error .truncated →
    s.input = bytesAsEvents bytes ++ .hardwareReset :: rest →
    step s = .next { engine := State.reset.engine, input := rest, responses := s.responses }) ∧
  (∀ (s : State) (bytes : List Byte) (rest : List PortEvent) (i : Instr), decode bytes = .ok (i, []) →
    s.input = bytesAsEvents bytes ++ .resetDuringCommand :: rest →
    step s = .next { engine := State.reset.engine, input := rest, responses := s.responses })

/-- 70_reset_and_hazards.md R140: the event of a hardware reset during a command, where no command executes (nothing has
crossed the port, or a part of a frame), is a hardware reset like the other: the reset registers, no response. That it
is so, and that the part of a frame is dropped, is the model's own deduction, marked DEDUCED in
notes/assumptions/4.md; the reset registers are decision D7 (notes/assumptions/6.md). -/
def Obligations.ResetDuringCommandWithNoneExecuting : Prop :=
  ∀ (s : State) (bytes : List Byte) (rest : List PortEvent), decode bytes = .error .truncated →
    s.input = bytesAsEvents bytes ++ .resetDuringCommand :: rest →
    step s = .next { engine := State.reset.engine, input := rest, responses := s.responses }

/-- 30_encoding.md R56: the bytes of each response. The status codes are decision D3 (notes/assumptions/16.md). -/
def Obligations.ResponseBytes : Prop :=
  Response.bytes .ok = [0x00] ∧
  Response.bytes (.error .invalidLength) = [0x01] ∧
  Response.bytes (.error .keyNotSet) = [0x02] ∧
  ∀ out : Vector Byte 16, Response.bytes (.block out) = 0x00 :: out.toList ∧
    (Response.bytes (.block out)).length = 17

/-- 30_encoding.md R61: what the frames of a program with pseudo-instructions do is what the commands they stand for do.
Decision D20 (notes/assumptions/15.md). -/
def Obligations.AssembledProgramRuns : Prop :=
  ∀ (lines : List AsmLine) (s : State), (∀ line ∈ lines, ∀ i ∈ line.expand, i.wf = true) →
    Sys2Proof.core.run (lines.flatMap AsmLine.expand).length
        (s.withInput (bytesAsEvents (assembleLines lines))) =
      execAll (lines.flatMap AsmLine.expand) (s.withInput [])

/-- 30_encoding.md R61: the expansions of the four pseudo-instructions. Decision D20 (notes/assumptions/15.md). -/
def Obligations.PseudoInstructionExpansions : Prop :=
  (∀ n, AsmLine.expand (.nextn n) = List.replicate n .next) ∧
  (∀ key, AsmLine.expand (.rekey key) = [.setkey key]) ∧
  (∀ key : Vector Byte 16, AsmLine.expand (.setkeyint key) = [.setkey key.reverse.toList]) ∧
  (∀ iv : Vector Byte 8, AsmLine.expand (.setivint iv) = [.setiv iv.reverse.toList])

/-! ## Invariants of the machine -/

/-- 10_state.md R19 at reset: no snapshot is held, by the reset state of decision D6 (notes/assumptions/6.md). -/
def Obligations.ResetHasNoSnapshot : Prop :=
  State.reset.EmptyHasNoSnapshot

/-- 10_state.md R19: while keyReady is 0 the master snapshot is zero; every step keeps this. -/
def Obligations.StepKeepsEmptyHasNoSnapshot : Prop :=
  ∀ s t : State, s.EmptyHasNoSnapshot → step s = .next t → t.EmptyHasNoSnapshot

/-- 10_state.md R18 at reset. -/
def Obligations.ResetFollowsLifecycle : Prop :=
  State.reset.FollowsLifecycle

/-- 10_state.md R18 with 42_iv_schedule.md R96, R97 and 43_keystream_extract.md R104: the registers are always those of
the lifecycle: Empty, with no snapshot and a working state some NEXTSTATE after zero; or Keyed, with some key's snapshot
and a working state some NEXTSTATE after the snapshot or after an IV setup from it. Every step keeps this. NEXT on an Empty engine is
decision D9 (notes/assumptions/9.md). -/
def Obligations.StepKeepsLifecycle : Prop :=
  ∀ s t : State, s.FollowsLifecycle → step s = .next t → t.FollowsLifecycle

/-- 60_exceptions.md R129: the engine speaks only when spoken to: a step adds at most one response, takes none back, and
adds one only if a whole frame was at the port. No asynchronous event exists by the spec's decision D14. -/
def Obligations.StepAddsAtMostOneResponse : Prop :=
  ∀ s t : State, step s = .next t → t.responses = s.responses ∨
    ∃ r bytes rest, t.responses = s.responses ++ [r] ∧ nextArrival s.input = .frame bytes rest
end

