-- ==== Sys2Proof/Laws/Operands.lean ====
section
/-! SUPPORT. What the operand forms and the word arithmetic compute, as numbers: the spec's own terms
(00_scope.md section 5, 20_memory.md R32 to R34). -/

namespace Sys2Proof.Machine

/-- The exact-length read succeeds on exactly the payloads of that length, and reads all of it (20_memory.md R37). -/
theorem exactBytes_eq_some_iff {n : Nat} {l : List Byte} {v : Vector Byte n} :
    exactBytes n l = some v ↔ l = v.toList := by
  unfold exactBytes
  constructor
  · intro h
    split at h
    · cases h; rfl
    · cases h
  · rintro rfl
    simp [Vector.toList]

@[simp] theorem exactBytes_toList {n : Nat} (v : Vector Byte n) : exactBytes n v.toList = some v :=
  exactBytes_eq_some_iff.mpr rfl

theorem exactBytes_eq_none_iff {n : Nat} {l : List Byte} : exactBytes n l = none ↔ l.length ≠ n := by
  unfold exactBytes
  split <;> simp_all

theorem unit16_toNat (lo hi : Byte) : (unit16 lo hi).toNat = lo.toNat + 256 * hi.toNat := by
  have h : (unit16 lo hi).toNat = hi.toNat <<< 8 ||| lo.toNat := BitVec.toNat_append hi lo
  rw [h, ← Nat.shiftLeft_add_eq_or_of_lt lo.isLt, Nat.shiftLeft_eq]
  omega

theorem pack_toNat (hi lo : Half) : (pack hi lo).toNat = 65536 * hi.toNat + lo.toNat := by
  have h : (pack hi lo).toNat = hi.toNat <<< 16 ||| lo.toNat := BitVec.toNat_append hi lo
  rw [h, ← Nat.shiftLeft_add_eq_or_of_lt lo.isLt, Nat.shiftLeft_eq]
  omega

/-- The word a table of pairs makes for lane i. -/
theorem packPairs_getElem {n : Nat} (pairs : Vector (Fin n × Fin n) 8) (units : Vector Half n) (i : Fin 8) :
    (packPairs pairs units)[i] = pack units[pairs[i].1] units[pairs[i].2] := by
  simp [packPairs]

theorem lowHalf_toNat (v : Word) : (lowHalf v).toNat = v.toNat % 65536 := by
  simp [lowHalf]

theorem highHalf_toNat (v : Word) : (highHalf v).toNat = v.toNat / 65536 := by
  have := v.isLt
  simp only [highHalf, BitVec.extractLsb'_toNat, Nat.shiftRight_eq_div_pow]
  omega

theorem lowByte_toNat (w : Half) : (lowByte w).toNat = w.toNat % 256 := by
  simp [lowByte]

theorem highByte_toNat (w : Half) : (highByte w).toNat = w.toNat / 256 := by
  have := w.isLt
  simp only [highByte, BitVec.extractLsb'_toNat, Nat.shiftRight_eq_div_pow]
  omega

/-- The two bytes of unit n (20_memory.md R34). -/
theorem serialize_getElem (w : Vector Half 8) (n : Fin 8) :
    (serialize w)[2 * n.val] = lowByte w[n] ∧ (serialize w)[2 * n.val + 1] = highByte w[n] := by
  match n with
  | 0 | 1 | 2 | 3 | 4 | 5 | 6 | 7 => exact ⟨rfl, rfl⟩

/-- The word and the carry out are the exact sum, nothing lost (40_state_update.md R76). -/
theorem addWithCarry_exact (a b : Word) (carryIn : Bool) :
    (addWithCarry a b carryIn).1.toNat + 2 ^ 32 * (addWithCarry a b carryIn).2.toNat =
      a.toNat + b.toNat + carryIn.toNat := by
  have ha := a.isLt
  have hb := b.isLt
  have hc : carryIn.toNat ≤ 1 := by cases carryIn <;> simp
  by_cases h : 2 ^ 32 ≤ a.toNat + b.toNat + carryIn.toNat <;>
    simp only [addWithCarry, h, BitVec.toNat_ofNat, decide_true, decide_false, Bool.toNat_true,
      Bool.toNat_false] <;> omega

theorem addWithCarry_carry (a b : Word) (carryIn : Bool) :
    (addWithCarry a b carryIn).2 = decide (2 ^ 32 ≤ a.toNat + b.toNat + carryIn.toNat) := rfl

end Sys2Proof.Machine
end

