-- ==== Sys2Proof/Laws/State.lean ====
section
/-! SUPPORT. One lemma per field per update of the state, so that no later proof unfolds a record update.
The proofs `(rfl)` are in parentheses so that simp rewrites with these lemmas and does not ask the kernel to compare
two states by unfolding their arithmetic. -/

namespace Sys2Proof.Machine

variable (s : State) (e : Engine) (w : RegisterSet) (r : Response) (err : EngineError) (es : List PortEvent)

/-! The registers under the spec's names are the paths to them: one spelling in every later proof. -/

@[simp] theorem State.x_eq : s.x = s.engine.work.x := (rfl)
@[simp] theorem State.c_eq : s.c = s.engine.work.c := (rfl)
@[simp] theorem State.carry_eq : s.carry = s.engine.work.carry := (rfl)
@[simp] theorem State.mx_eq : s.mx = s.engine.master.x := (rfl)
@[simp] theorem State.mc_eq : s.mc = s.engine.master.c := (rfl)
@[simp] theorem State.mcarry_eq : s.mcarry = s.engine.master.carry := (rfl)
@[simp] theorem State.keyReady_eq : s.keyReady = s.engine.keyReady := (rfl)

@[simp] theorem State.complete_engine : (s.complete e r).engine = e := (rfl)
@[simp] theorem State.complete_input : (s.complete e r).input = s.input := (rfl)
@[simp] theorem State.complete_responses : (s.complete e r).responses = s.responses ++ [r] := (rfl)

@[simp] theorem State.raise_engine : (s.raise err).engine = s.engine := (rfl)
@[simp] theorem State.raise_input : (s.raise err).input = s.input := (rfl)
@[simp] theorem State.raise_responses : (s.raise err).responses = s.responses ++ [.error err] := (rfl)

@[simp] theorem State.hardwareReset_engine : s.hardwareReset.engine = Engine.reset := (rfl)
@[simp] theorem State.hardwareReset_input : s.hardwareReset.input = s.input := (rfl)
@[simp] theorem State.hardwareReset_responses : s.hardwareReset.responses = s.responses := (rfl)

@[simp] theorem State.withInput_engine : (s.withInput es).engine = s.engine := (rfl)
@[simp] theorem State.withInput_input : (s.withInput es).input = es := (rfl)
@[simp] theorem State.withInput_responses : (s.withInput es).responses = s.responses := (rfl)

@[simp] theorem Engine.snapshot_work : (Engine.snapshot w).work = w := (rfl)
@[simp] theorem Engine.snapshot_master : (Engine.snapshot w).master = w := (rfl)
@[simp] theorem Engine.snapshot_keyReady : (Engine.snapshot w).keyReady = true := (rfl)

@[simp] theorem Engine.withWork_work : (e.withWork w).work = w := (rfl)
@[simp] theorem Engine.withWork_master : (e.withWork w).master = e.master := (rfl)
@[simp] theorem Engine.withWork_keyReady : (e.withWork w).keyReady = e.keyReady := (rfl)

@[simp] theorem Engine.withWork_withWork (w' : RegisterSet) :
    (e.withWork w).withWork w' = e.withWork w' := (rfl)

@[simp] theorem Engine.reset_work : Engine.reset.work = RegisterSet.zero := (rfl)
@[simp] theorem Engine.reset_master : Engine.reset.master = RegisterSet.zero := (rfl)
@[simp] theorem Engine.reset_keyReady : Engine.reset.keyReady = false := (rfl)

end Sys2Proof.Machine
end

