-- ==== Sys2Proof/Laws/Commands.lean ====
section
/-! SUPPORT. What each command answers, case by case, and what every command has in common. Later proofs cite these
and unfold no meaning. -/

namespace Sys2Proof.Machine

/-! The proofs `(rfl)` are in parentheses so that simp rewrites with these lemmas and does not ask the kernel to
compare two state updates by unfolding their arithmetic. -/

@[simp] theorem nextState_c (w : RegisterSet) : (nextState w).c = (ctrUpd w.c w.carry).1 := (rfl)
@[simp] theorem nextState_carry (w : RegisterSet) : (nextState w).carry = (ctrUpd w.c w.carry).2 := (rfl)
theorem nextState_x (w : RegisterSet) :
    (nextState w).x = diffuse (gValues w.x (ctrUpd w.c w.carry).1) := (rfl)

@[simp] theorem nextStates_zero (w : RegisterSet) : nextStates 0 w = w := (rfl)
theorem nextStates_succ (n : Nat) (w : RegisterSet) :
    nextStates (n + 1) w = nextStates n (nextState w) := (rfl)

theorem nextStates_succ_last (n : Nat) (w : RegisterSet) :
    nextStates (n + 1) w = nextState (nextStates n w) := by
  induction n generalizing w with
  | zero => rfl
  | succ n ih => rw [nextStates_succ, ih, nextStates_succ]

/-- The re-injection, lane by lane: the table of 41_key_schedule.md R84. -/
theorem reinject_eq (w : RegisterSet) :
    reinject w =
      { x := w.x
        c := #v[w.c[0] ^^^ w.x[4], w.c[1] ^^^ w.x[5], w.c[2] ^^^ w.x[6], w.c[3] ^^^ w.x[7],
          w.c[4] ^^^ w.x[0], w.c[5] ^^^ w.x[1], w.c[6] ^^^ w.x[2], w.c[7] ^^^ w.x[3]]
        carry := w.carry } := by
  simp only [reinject, RegisterSet.mk.injEq, true_and, and_true]
  ext i hi
  rcases i with _ | _ | _ | _ | _ | _ | _ | _ | i <;> simp
  omega

/-- A payload of the right length is the bytes of a vector of that length. -/
theorem exists_vector_of_length {n : Nat} {l : List Byte} (h : l.length = n) :
    ∃ v : Vector Byte n, l = v.toList :=
  ⟨⟨l.toArray, h⟩, rfl⟩

theorem exec_reset (s : State) : exec .reset s = .next (s.complete Engine.reset .ok) := rfl

theorem exec_setkey_exact (key : Key) (s : State) :
    exec (.setkey key.toList) s = .next (s.complete (keySetup key) .ok) := by
  simp [exec, execSetkey]

theorem exec_setkey_wrong {key : List Byte} (s : State) (h : key.length ≠ 16) :
    exec (.setkey key) s = .next (s.raise .invalidLength) := by
  simp [exec, execSetkey, exactBytes_eq_none_iff.mpr h]

theorem exec_setiv_empty (iv : List Byte) {s : State} (h : s.engine.keyReady = false) :
    exec (.setiv iv) s = .next (s.raise .keyNotSet) := by
  simp [exec, execSetiv, h]

theorem exec_setiv_wrong {iv : List Byte} {s : State} (h : s.engine.keyReady = true)
    (hl : iv.length ≠ 8) : exec (.setiv iv) s = .next (s.raise .invalidLength) := by
  simp [exec, execSetiv, h, exactBytes_eq_none_iff.mpr hl]

theorem exec_setiv_exact (iv : Iv) {s : State} (h : s.engine.keyReady = true) :
    exec (.setiv iv.toList) s =
      .next (s.complete (s.engine.withWork (ivSetup s.engine.master iv)) .ok) := by
  simp [exec, execSetiv, h]

theorem exec_next (s : State) :
    exec .next s = .next (s.complete (s.engine.withWork (nextState s.engine.work))
      (.block (keystreamBlock (nextState s.engine.work)))) := rfl

/-- Everything a command can do: the rows of the outcome table (60_exceptions.md R137). -/
theorem exec_cases (i : Instr) (s : State) :
    (i = .reset ∧ exec i s = .next (s.complete Engine.reset .ok)) ∨
    (∃ key : Key, i = .setkey key.toList ∧
      exec i s = .next (s.complete (keySetup key) .ok)) ∨
    (∃ key, i = .setkey key ∧ key.length ≠ 16 ∧
      exec i s = .next (s.raise .invalidLength)) ∨
    (∃ iv, i = .setiv iv ∧ s.engine.keyReady = false ∧ exec i s = .next (s.raise .keyNotSet)) ∨
    (∃ iv, i = .setiv iv ∧ s.engine.keyReady = true ∧ iv.length ≠ 8 ∧
      exec i s = .next (s.raise .invalidLength)) ∨
    (∃ iv : Iv, i = .setiv iv.toList ∧ s.engine.keyReady = true ∧
      exec i s = .next (s.complete (s.engine.withWork (ivSetup s.engine.master iv)) .ok)) ∨
    (i = .next ∧ exec i s = .next (s.complete (s.engine.withWork (nextState s.engine.work))
      (.block (keystreamBlock (nextState s.engine.work))))) := by
  cases i with
  | reset => exact .inl ⟨rfl, rfl⟩
  | setkey key =>
    by_cases h : key.length = 16
    · obtain ⟨v, rfl⟩ := exists_vector_of_length h
      exact .inr (.inl ⟨v, rfl, exec_setkey_exact v s⟩)
    · exact .inr (.inr (.inl ⟨key, rfl, h, exec_setkey_wrong s h⟩))
  | setiv iv =>
    cases hk : s.engine.keyReady with
    | false => exact .inr (.inr (.inr (.inl ⟨iv, rfl, rfl, exec_setiv_empty iv hk⟩)))
    | true =>
      by_cases h : iv.length = 8
      · obtain ⟨v, rfl⟩ := exists_vector_of_length h
        exact .inr (.inr (.inr (.inr (.inr (.inl ⟨v, rfl, rfl, exec_setiv_exact v hk⟩)))))
      · exact .inr (.inr (.inr (.inr (.inl ⟨iv, rfl, rfl, h, exec_setiv_wrong hk h⟩))))
  | next => exact .inr (.inr (.inr (.inr (.inr (.inr ⟨rfl, rfl⟩)))))

/-- A command always ends, with new registers and one response. -/
theorem exec_completes (i : Instr) (s : State) : ∃ e r, exec i s = .next (s.complete e r) := by
  rcases exec_cases i s with ⟨-, h⟩ | ⟨_, -, h⟩ | ⟨_, -, -, h⟩ | ⟨_, -, -, h⟩ | ⟨_, -, -, -, h⟩ |
    ⟨_, -, -, h⟩ | ⟨-, h⟩ <;> exact ⟨_, _, h⟩

end Sys2Proof.Machine
end

