-- ==== Sys2Proof/Laws/PerInstr.lean ====
section
/-! SUPPORT. Facts about every command as syntax, one lemma per constructor. -/

namespace Sys2Proof.Laws.FrameLength

/-- A command's frame is 2 + LEN bytes and its LEN byte is the payload's length (30_encoding.md R51, R52). -/
def Statement (i : Instr) : Prop :=
  i.wf = true → ∃ len : Byte, (encode i)[1]? = some len ∧ len.toNat = i.payload.length ∧
    (encode i).length = 2 + len.toNat

/-- The frame of any well-formed payload. -/
theorem of_payload (i : Instr) : Statement i := by
  intro h
  have hl : i.payload.length ≤ 255 := by simpa [Instr.wf] using h
  refine ⟨BitVec.ofNat 8 i.payload.length, rfl, ?_, ?_⟩
  · simp only [BitVec.toNat_ofNat]; omega
  · simp only [encode, List.length_cons, BitVec.toNat_ofNat]; omega

theorem reset : Statement .reset := of_payload _
theorem setkey (key : List Byte) : Statement (.setkey key) := of_payload _
theorem setiv (iv : List Byte) : Statement (.setiv iv) := of_payload _
theorem next : Statement .next := of_payload _

end Sys2Proof.Laws.FrameLength
end

