-- ==== Sys2Proof/Laws/Port.lean ====
section
/-! SUPPORT. What the decoder and the port do with a frame, and everything a step can do. -/

namespace Sys2Proof

theorem Instr.wf_iff (i : Instr) : i.wf = true ↔ i.payload.length ≤ 255 := by
  simp [Instr.wf]

/-- A frame followed by anything decodes by its header and payload alone (30_encoding.md R51). -/
theorem decode_frame (op len : Byte) (data rest : List Byte) (h : data.length = len.toNat) :
    decode (op :: len :: (data ++ rest)) =
      match decodeFrame op len data with
      | .ok i => .ok (i, rest)
      | .error e => .error e := by
  have hlen : ¬ (data ++ rest).length < data.length := by simp
  cases hd : decodeFrame op len data <;>
    simp only [decode, ← h, if_neg hlen, List.take_left, List.drop_left, hd]

/-- Bytes are truncated only before the header or before the payload is whole. -/
theorem decode_truncated {bytes : List Byte} (h : decode bytes = .error .truncated) :
    bytes = [] ∨ (∃ b, bytes = [b]) ∨ ∃ op len data, bytes = op :: len :: data ∧ data.length < len.toNat := by
  match bytes, h with
  | [], _ => exact .inl rfl
  | [b], _ => exact .inr (.inl ⟨b, rfl⟩)
  | op :: len :: data, h =>
    refine .inr (.inr ⟨op, len, data, rfl, ?_⟩)
    by_contra hn
    simp only [decode, if_neg hn, decodeFrame] at h
    split_ifs at h <;> simp at h

/-- What decodes is a header and a payload of the length the header says. -/
theorem decode_ok_frame {bytes rest : List Byte} {i : Instr} (h : decode bytes = .ok (i, rest)) :
    ∃ op len data, bytes = op :: len :: (data ++ rest) ∧ data.length = len.toNat ∧
      decodeFrame op len data = .ok i := by
  match bytes, h with
  | [], h => simp [decode] at h
  | [_], h => simp [decode] at h
  | op :: len :: body, h =>
    simp only [decode] at h
    split at h
    · cases h
    · split at h
      · rename_i hl j hj
        cases h
        exact ⟨op, len, body.take len.toNat, by simp, by simp; omega, hj⟩
      · cases h

namespace Machine

@[simp] theorem execAll_nil (s : State) : execAll [] s = .next s := rfl

theorem execAll_cons {i : Instr} {s t : State} (is : List Instr) (h : exec i s = .next t) :
    execAll (i :: is) s = execAll is t := by
  simp only [execAll, h]

@[simp] theorem bytesAsEvents_nil : bytesAsEvents [] = [] := rfl
@[simp] theorem bytesAsEvents_cons (b : Byte) (bs : List Byte) :
    bytesAsEvents (b :: bs) = .byte b :: bytesAsEvents bs := rfl
@[simp] theorem bytesAsEvents_append (a b : List Byte) :
    bytesAsEvents (a ++ b) = bytesAsEvents a ++ bytesAsEvents b := List.map_append

/-- A payload that has wholly crossed is taken whole. -/
theorem takePayload_bytes (data taken : List Byte) (rest : List PortEvent) :
    takePayload data.length taken (bytesAsEvents data ++ rest) =
      takePayload 0 (data.reverse ++ taken) rest := by
  induction data generalizing taken with
  | nil => rfl
  | cons b bs ih => simpa [takePayload] using ih (b :: taken)

/-- A payload that has not wholly crossed is waited for. -/
theorem takePayload_short (data taken : List Byte) {n : Nat} (h : data.length < n) :
    takePayload n taken (bytesAsEvents data) = .waiting := by
  induction data generalizing n taken with
  | nil =>
    obtain ⟨m, rfl⟩ : ∃ m, n = m + 1 := ⟨n - 1, by simp at h; omega⟩
    rfl
  | cons b bs ih =>
    obtain ⟨m, rfl⟩ : ∃ m, n = m + 1 := ⟨n - 1, by simp at h; omega⟩
    exact ih (b :: taken) (by simpa using h)

/-- A hardware reset before the payload has wholly crossed takes its place: the bytes before it are gone
(notes/assumptions/4.md). -/
theorem takePayload_reset (data taken : List Byte) {n : Nat} (h : data.length < n) {e : PortEvent}
    (he : e = .hardwareReset ∨ e = .resetDuringCommand) (rest : List PortEvent) :
    takePayload n taken (bytesAsEvents data ++ e :: rest) = .reset rest := by
  induction data generalizing n taken with
  | nil =>
    obtain ⟨m, rfl⟩ : ∃ m, n = m + 1 := ⟨n - 1, by simp at h; omega⟩
    rcases he with rfl | rfl <;> rfl
  | cons b bs ih =>
    obtain ⟨m, rfl⟩ : ∃ m, n = m + 1 := ⟨n - 1, by simp at h; omega⟩
    exact ih (b :: taken) (by simpa using h)

/-- A whole frame at the port is taken, unless a hardware reset comes while its command executes. -/
theorem nextArrival_frame (op len : Byte) (data : List Byte) (rest : List PortEvent)
    (h : data.length = len.toNat) (hr : rest.head? ≠ some .resetDuringCommand) :
    nextArrival (bytesAsEvents (op :: len :: data) ++ rest) = .frame (op :: len :: data) rest := by
  simp only [bytesAsEvents_cons, List.cons_append, nextArrival, ← h, takePayload_bytes]
  match rest, hr with
  | [], _ => simp [takePayload]
  | .byte _ :: _, _ => simp [takePayload]
  | .hardwareReset :: _, _ => simp [takePayload]
  | .resetDuringCommand :: _, hr => simp at hr

/-- A hardware reset while the command executes interrupts it. -/
theorem nextArrival_interrupted (op len : Byte) (data : List Byte) (rest : List PortEvent)
    (h : data.length = len.toNat) :
    nextArrival (bytesAsEvents (op :: len :: data) ++ .resetDuringCommand :: rest) =
      .interrupted (op :: len :: data) rest := by
  simp [nextArrival, ← h, takePayload_bytes, takePayload]

/-- Everything a step can do: wait, reset the registers, run one command, or refuse a reserved frame. -/
theorem step_cases (s : State) :
    step s = .next s ∨
    (∃ rest, step s = .next (s.withInput rest).hardwareReset) ∨
    (∃ i rest, step s = exec i (s.withInput rest)) ∨
    (∃ r, step s = .refused r) := by
  unfold step
  split
  · exact .inl rfl
  · exact .inr (.inl ⟨_, rfl⟩)
  · split
    · exact .inr (.inr (.inl ⟨_, _, rfl⟩))
    · rename_i e _
      cases e
      · exact .inl rfl
      · exact .inr (.inr (.inr ⟨_, rfl⟩))
      · exact .inr (.inr (.inr ⟨_, rfl⟩))
  · split
    · exact .inr (.inl ⟨_, rfl⟩)
    · rename_i e _
      cases e
      · exact .inl rfl
      · exact .inr (.inr (.inr ⟨_, rfl⟩))
      · exact .inr (.inr (.inr ⟨_, rfl⟩))

/-- The induction every invariant of the machine needs, done once: what a hardware reset establishes and every
command keeps, whatever stands at the port, every step keeps. -/
theorem step_keeps {Inv : Engine → Prop} (hreset : Inv Engine.reset)
    (hexec : ∀ i s t, Inv s.engine → exec i s = .next t → Inv t.engine)
    {s t : State} (hs : Inv s.engine) (h : step s = .next t) : Inv t.engine := by
  rcases step_cases s with h' | ⟨rest, h'⟩ | ⟨i, rest, h'⟩ | ⟨r, h'⟩ <;> rw [h'] at h
  · cases h; exact hs
  · cases h; exact hreset
  · exact hexec i (s.withInput rest) t hs h
  · cases h

end Machine

end Sys2Proof
end

