-- ==== Sys2Proof/Laws/StateUpdate.lean ====
section
/-! SUPPORT. What the parts of the state update compute (40_state_update.md R71 to R73): lemmas to cite where a proof
would otherwise unfold them. -/

namespace Sys2Proof.Machine

theorem addWithCarry_sum_toNat (a b : Word) (carryIn : Bool) :
    (addWithCarry a b carryIn).1.toNat = (a.toNat + b.toNat + carryIn.toNat) % 2 ^ 32 := rfl

theorem addWithCarry_carry_toNat (a b : Word) (carryIn : Bool) :
    (addWithCarry a b carryIn).2.toNat =
      if 2 ^ 32 ≤ a.toNat + b.toNat + carryIn.toNat then 1 else 0 := by
  rw [addWithCarry_carry]
  split <;> simp_all

/-- The eight additions of CTRUPD, each handing its carry to the next lane (40_state_update.md R71). -/
theorem ctrUpd_chain (cs : Lanes) (carry : Bool) : ∃ b1 b2 b3 b4 b5 b6 b7 : Bool,
    addWithCarry cs[0] increments[0] carry = ((ctrUpd cs carry).1[0], b1) ∧
    addWithCarry cs[1] increments[1] b1 = ((ctrUpd cs carry).1[1], b2) ∧
    addWithCarry cs[2] increments[2] b2 = ((ctrUpd cs carry).1[2], b3) ∧
    addWithCarry cs[3] increments[3] b3 = ((ctrUpd cs carry).1[3], b4) ∧
    addWithCarry cs[4] increments[4] b4 = ((ctrUpd cs carry).1[4], b5) ∧
    addWithCarry cs[5] increments[5] b5 = ((ctrUpd cs carry).1[5], b6) ∧
    addWithCarry cs[6] increments[6] b6 = ((ctrUpd cs carry).1[6], b7) ∧
    addWithCarry cs[7] increments[7] b7 = ((ctrUpd cs carry).1[7], (ctrUpd cs carry).2) := by
  unfold ctrUpd
  generalize addWithCarry = add
  exact ⟨_, _, _, _, _, _, _, rfl, rfl, rfl, rfl, rfl, rfl, rfl, rfl⟩

/-- The spec's rotl is a rotation (00_scope.md section 5). -/
theorem rotl_eight_toNat (v : Word) : (rotl v 8).toNat = v.toNat * 2 ^ 8 % 2 ^ 32 + v.toNat / 2 ^ 24 := by
  have hv := v.isLt
  have h : (rotl v 8).toNat = (v.toNat <<< 8 % 2 ^ 32) ||| (v.toNat >>> 24) := by
    simp [rotl, BitVec.rotateLeft, BitVec.rotateLeftAux]
  have e : v.toNat * 2 ^ 8 % 2 ^ 32 = 2 ^ 8 * (v.toNat % 2 ^ 24) := by omega
  rw [h, Nat.shiftLeft_eq, Nat.shiftRight_eq_div_pow, e, ← Nat.two_pow_add_eq_or_of_lt (by omega)]

theorem rotl_sixteen_toNat (v : Word) :
    (rotl v 16).toNat = v.toNat * 2 ^ 16 % 2 ^ 32 + v.toNat / 2 ^ 16 := by
  have hv := v.isLt
  have h : (rotl v 16).toNat = (v.toNat <<< 16 % 2 ^ 32) ||| (v.toNat >>> 16) := by
    simp [rotl, BitVec.rotateLeft, BitVec.rotateLeftAux]
  have e : v.toNat * 2 ^ 16 % 2 ^ 32 = 2 ^ 16 * (v.toNat % 2 ^ 16) := by omega
  rw [h, Nat.shiftLeft_eq, Nat.shiftRight_eq_div_pow, e, ← Nat.two_pow_add_eq_or_of_lt (by omega)]

@[simp] theorem gValues_getElem (xs cs : Lanes) (i : Nat) (h : i < 8) :
    (gValues xs cs)[i] = gFunction xs[i] cs[i] := by
  simp [gValues]

/-- The general form of DIFFUSE, lane indices mod 8 (40_state_update.md R73). -/
theorem diffuse_getElem (g : Lanes) (i : Fin 8) :
    (diffuse g)[i] = if i.val % 2 = 0 then g[i] + rotl g[i - 1] 16 + rotl g[i - 2] 16
      else g[i] + rotl g[i - 1] 8 + g[i - 2] := by
  match i with
  | 0 => rfl
  | 1 => rfl
  | 2 => rfl
  | 3 => rfl
  | 4 => rfl
  | 5 => rfl
  | 6 => rfl
  | 7 => rfl

end Sys2Proof.Machine
end

