-- ==== Sys2Proof/Tests/Slice0.lean ====
section
/-! SUPPORT. Tests against the spec's own vectors (95_test_vectors.md, by section), the well-formedness smoke test, and a
witness for every statement that has hypotheses. -/

namespace Sys2Proof.Tests

open Sys2Proof.Machine

/-! ## Helpers -/

/-- The state an outcome holds, or the reset state. -/
def after : Host.Outcome State Fault Refusal → State
  | .next t => t
  | _ => State.reset

/-- Sixteen zero bytes, the key of the source's first vector. -/
def zeroKey : List Byte := List.replicate 16 0

/-- KEY[0..15] of the source's second vector (section 1.2). -/
def secondKey : List Byte :=
  [0xAC, 0xC3, 0x51, 0xDC, 0xF1, 0x62, 0xFC, 0x3B, 0xFE, 0x36, 0x3D, 0x2E, 0x29, 0x13, 0x28, 0x91]

/-- IV[0..7] of section 5.2. -/
def someIv : List Byte := [0x59, 0x7E, 0x26, 0xC1, 0x75, 0xF5, 0x73, 0xC3]

/-- A Keyed state: after SETKEY of the zero key. -/
def keyedZero : State := after (exec (.setkey zeroKey) State.reset)

/-- A small Keyed state that need not come from any key. -/
def keyedBlank : State :=
  { State.reset with engine := { Engine.reset with keyReady := true } }

/-- A state with given bytes at the port. -/
def withBytes (bytes : List Byte) : State := State.reset.withInput (bytesAsEvents bytes)

/-! ## Well-formedness: a payload a frame cannot carry is refused -/

theorem test_wf_refuses_setkey_256 : (Instr.setkey (List.replicate 256 0)).wf = false := by decide +kernel
theorem test_wf_refuses_setiv_256 : (Instr.setiv (List.replicate 256 0)).wf = false := by decide +kernel
theorem test_wf_admits_setkey_255 : (Instr.setkey (List.replicate 255 0)).wf = true := by decide +kernel

/-! ## Decoding, from the frames of section 8 -/

theorem test_decode_reset : decode [0x00, 0x00] = .ok (.reset, []) := rfl
theorem test_decode_setkey_two_bytes : decode [0x01, 0x02, 0x00, 0x11] = .ok (.setkey [0x00, 0x11], []) := rfl
theorem test_decode_setiv : decode [0x02, 0x08, 0x59, 0x7E, 0x26, 0xC1, 0x75, 0xF5, 0x73, 0xC3] =
    .ok (.setiv someIv, []) := rfl
theorem test_decode_next_thrice : decode [0x03, 0x00, 0x03, 0x00, 0x03, 0x00] =
    .ok (.next, [0x03, 0x00, 0x03, 0x00]) := rfl
theorem test_decode_op_4_reserved : decode [0x04, 0x00] = .error (.reservedOp 0x04) := rfl
theorem test_decode_next_len_1_reserved : decode [0x03, 0x01, 0x00] = .error (.reservedLength 0x03 0x01) := rfl
theorem test_encode_setkey : encode (.setkey secondKey) = 0x01 :: 0x10 :: secondKey := rfl

/-! ## Table words -/

theorem test_table_word_setkey : decodeTableWord 16 0x0001 = some (.setkey []) := by decide
theorem test_table_word_setkey_len_16 : decodeTableWord 16 0x1001 = some (.setkey zeroKey) := by decide
theorem test_table_word_next_runs :
    (after (step (State.reset.withFetchWord 16 0x0003))).x[0] = 0xD1D9A5DF := by decide

/-! ## The state update: sections 3.1 to 3.4 -/

/-- Section 3.1, vector 3: carries chain from lane to lane, and lane 7's is stored. -/
theorem test_ctrUpd_chains : ctrUpd increments false =
    (#v[0x9A69A69A, 0xA69A69A6, 0x69A69A69, 0x9A69A69A, 0xA69A69A6, 0x69A69A69, 0x9A69A69A, 0xA69A69A6], true) := by
  decide

/-- Section 3.1, vector 6: a sum of exactly 2^32 carries. -/
theorem test_ctrUpd_exact_carry :
    ctrUpd #v[0xB2CB2CB2, 0x2CB2CB2C, 0xCB2CB2CB, 0xB2CB2CB3, 0x2CB2CB2C, 0xCB2CB2CB, 0xB2CB2CB2, 0x2CB2CB2D] true =
      (#v[0, 0, 0, 1, 0, 0, 0, 1], true) := by
  decide

/-- Section 3.2, vectors 9 and 12. -/
theorem test_gFunction_wraps_before_squaring : gFunction 0xFFFFFFFF 0x00000001 = 0 := by decide
theorem test_gFunction_general : gFunction 0x12345678 0x9ABCDEF0 = 0x2C213949 := by decide

/-- Section 3.3, vectors 2 and 5. -/
theorem test_diffuse_rotates : diffuse (Vector.replicate 8 0x80000001) =
    #v[0x80030001, 0x00000182, 0x80030001, 0x00000182, 0x80030001, 0x00000182, 0x80030001, 0x00000182] := by decide
theorem test_diffuse_general :
    diffuse #v[0x01234567, 0x89ABCDEF, 0xFEDCBA98, 0x76543210, 0x0F1E2D3C, 0x4B5A6978, 0x8796A5B4, 0xC3D2E1F0] =
      #v[0x88C890CF, 0x70C416E0, 0x12334566, 0xDCBA98FD, 0xFBC7A26C, 0xDFDBD797, 0x1E4B002C, 0xA5D2FFEF] := by decide

/-- Section 3.4, step 1: G reads the new counter. -/
theorem test_nextState_from_zero : (nextState RegisterSet.zero).x =
    #v[0xD1D9A5DF, 0x144F9F2A, 0x82C7A609, 0xB58C6651, 0xBC3D6C93, 0xEF19638D, 0xD20356CD, 0x787A3CCA] := by decide

/-! ## SETKEY: sections 4.2, 4.3 and 7 -/

/-- Section 4.3, the initial load. -/
theorem test_keyLoad_places_every_byte :
    keyLoad #v[0, 1, 2, 3, 4, 5, 6, 7, 8, 9, 10, 11, 12, 13, 14, 15] =
      { x := #v[0x03020100, 0x0D0C0B0A, 0x07060504, 0x01000F0E, 0x0B0A0908, 0x05040302, 0x0F0E0D0C, 0x09080706]
        c := #v[0x09080B0A, 0x03020504, 0x0D0C0F0E, 0x07060908, 0x01000302, 0x0B0A0D0C, 0x05040706, 0x0F0E0100]
        carry := false } := by decide

/-- Section 4.2, the final state: x[0], c[4] after the re-injection, carry, keyReady, and the snapshot's mc[0]. -/
theorem test_setkey_second_vector :
    let t := after (exec (.setkey secondKey) State.reset)
    t.x[0] = 0x1D059312 ∧ t.c[4] = 0x0DE43C8C ∧ t.carry = false ∧ t.keyReady = true ∧ t.mc[0] = 0x5DA1EF57 := by
  decide +kernel

/-- Section 7, row 9: 17 bytes. -/
theorem test_setkey_17_bytes : (after (exec (.setkey (List.replicate 17 0)) State.reset)).responses =
    [.error .invalidLength] := by decide

/-! ## SETIV: sections 5.2, 5.4 and 7 -/

/-- Section 5.4, row 2: the four lane words, first index high. -/
theorem test_iv_words : packPairs ivPairs (ivUnits #v[0x01, 0x23, 0x45, 0x67, 0x89, 0xAB, 0xCD, 0xEF]) =
    #v[0x67452301, 0xEFCD6745, 0xEFCDAB89, 0xAB892301, 0x67452301, 0xEFCD6745, 0xEFCDAB89, 0xAB892301] := by decide

/-- Section 5.2, after the four NEXTSTATE; the snapshot is unchanged. -/
theorem test_setiv_from_zero_key :
    let t := after (exec (.setiv someIv) keyedZero)
    t.x[0] = 0xF8507D71 ∧ t.c[7] = 0x710A5B78 ∧ t.carry = true ∧ t.mx[0] = 0x6E9E1D18 := by decide +kernel

/-- Section 7, row 5: both errors apply and KeyNotSet is reported. -/
theorem test_setiv_empty_seven_bytes :
    (after (exec (.setiv (List.replicate 7 0)) State.reset)).outputBytes = [0x02] := by decide

/-! ## NEXT: sections 2.1, 6.2 and 6.3 -/

/-- Section 6.2, row 2: the extraction alone. -/
theorem test_extraction :
    serialize (extractWords
      #v[0xA1B2C3D4, 0x11223344, 0x55667788, 0x99AABBCC, 0xDDEEFF00, 0x0F1E2D3C, 0x4B5A6978, 0x8796A5B4]) =
      #v[0xCA, 0xCC, 0x7E, 0x1A, 0x1E, 0xF0, 0x5A, 0x78, 0x22, 0xEE, 0x5A, 0x78, 0xD2, 0xF0, 0x1E, 0x78] := by decide

/-- Section 2.1: the source's first known-answer block, in the engine's byte order. -/
theorem test_next_first_known_answer : (after (exec .next keyedZero)).outputBytes =
    [0x00, 0x00, 0x02, 0xF7, 0x4A, 0x1C, 0x26, 0x45, 0x6B, 0xF5, 0xEC, 0xD6, 0xA5, 0x36, 0xF0, 0x54, 0x57, 0xB1] := by
  decide +kernel

/-- Section 6.3: NEXT on an Empty engine. -/
theorem test_next_on_empty : (after (exec .next State.reset)).outputBytes =
    [0x00, 0xC6, 0x4A, 0x88, 0xB7, 0x73, 0xDE, 0x4A, 0xE1, 0xDC, 0x78, 0xF7, 0x80, 0x41, 0xE3, 0x29, 0x4D] := by
  decide

/-! ## RESET: section 7, row 2 -/

theorem test_reset_clears_keyed : (after (exec .reset keyedZero)).engine = State.reset.engine := by decide

/-! ## The port -/

/-- A hardware reset while NEXT executes: no response, the reset registers (70_reset_and_hazards.md R142). -/
theorem test_reset_during_next :
    step { keyedBlank with input := [.byte 0x03, .byte 0x00, .resetDuringCommand] } = .next State.reset := rfl

/-- A frame that has not wholly crossed is waited for. -/
theorem test_partial_frame_waits : step (withBytes [0x01, 0x10, 0x00]) = .next (withBytes [0x01, 0x10, 0x00]) := rfl

/-! ## The assembler: 30_encoding.md R60, R61 and section 8 -/

theorem test_assemble_setivint :
    assemble ['S', 'E', 'T', 'I', 'V', 'I', 'N', 'T', ' ', 'C', '3', '7', '3', 'F', '5', '7', '5', 'C', '1', '2', '6',
      '7', 'E', '5', '9'] = some (0x02 :: 0x08 :: someIv) := by decide
theorem test_assemble_nextn :
    assemble ['N', 'E', 'X', 'T', 'N', ' ', '3', ';', 'x', '\n', 'R', 'E', 'S', 'E', 'T'] =
      some [0x03, 0x00, 0x03, 0x00, 0x03, 0x00, 0x00, 0x00] := by decide
theorem test_assemble_spaced_hex :
    assemble ['S', 'E', 'T', 'K', 'E', 'Y', ' ', '0', '0', ' ', '1', '1'] = some [0x01, 0x02, 0x00, 0x11] := by decide
theorem test_assemble_odd_digits : assemble ['S', 'E', 'T', 'I', 'V', ' ', '0'] = none := by decide

/-! ## Witnesses: every statement with hypotheses has states and operands that meet them all -/

theorem witness_CounterSystemIgnoresStateWords : ∃ w w' : RegisterSet, w ≠ w' ∧ w.c = w'.c ∧ w.carry = w'.carry :=
  ⟨RegisterSet.zero, { RegisterSet.zero with x := increments }, by decide, rfl, rfl⟩

theorem witness_NewStateWordDependsOnThreeLanes : ∃ (w w' : RegisterSet) (i : Fin 8), w ≠ w' ∧ w.c = w'.c ∧
    w.carry = w'.carry ∧ w.x[i] = w'.x[i] ∧ w.x[i - 1] = w'.x[i - 1] ∧ w.x[i - 2] = w'.x[i - 2] :=
  ⟨RegisterSet.zero, { RegisterSet.zero with x := #v[0, 0, 0, 0, 1, 0, 0, 0] }, 0, by decide⟩

theorem witness_SetkeyWrongLength : ∃ a b c : List Byte, a.length = 15 ∧ b.length = 17 ∧ c.length = 0 ∧
    a.length ≠ 16 ∧ b.length ≠ 16 ∧ c.length ≠ 16 :=
  ⟨List.replicate 15 0, List.replicate 17 0, [], by decide⟩

theorem witness_SetivResult : ∃ s : State, s.keyReady = true := ⟨keyedBlank, rfl⟩
theorem witness_SetivKeyNotSet : ∃ s : State, s.keyReady = false := ⟨State.reset, rfl⟩
theorem witness_SetivRestartsTheKeystream : ∃ s : State, s.keyReady = true := ⟨keyedBlank, rfl⟩
theorem witness_ZeroIvIsFourNextStates : ∃ s : State, s.keyReady = true := ⟨keyedBlank, rfl⟩
theorem witness_InvalidLengthExactlyAtWrongLength : ∃ s : State, s.keyReady = true := ⟨keyedBlank, rfl⟩

theorem witness_ErrorsLeaveNoTrace : ∃ (i : Instr) (s t : State) (e : EngineError), exec i s = .next t ∧
    t.responses = s.responses ++ [.error e] :=
  ⟨.setiv [], State.reset, _, .keyNotSet, rfl, rfl⟩

theorem witness_SnapshotAccess_writer : ∃ (i : Instr) (s t : State), exec i s = .next t :=
  ⟨.next, State.reset, _, rfl⟩
theorem witness_SnapshotAccess_reader : ∃ i : Instr, ∀ iv, i ≠ .setiv iv := ⟨.next, nofun⟩

theorem witness_LifecycleTransitions_hardwareReset : ∃ (s : State) (bytes : List Byte) (rest : List PortEvent),
    s.keyReady = true ∧ decode bytes = .error .truncated ∧ s.input = bytesAsEvents bytes ++ .hardwareReset :: rest :=
  ⟨keyedBlank.withInput [.hardwareReset], [], [], rfl, rfl, rfl⟩
theorem witness_LifecycleTransitions_interrupted : ∃ (s : State) (bytes : List Byte) (rest : List PortEvent)
    (i : Instr), s.keyReady = true ∧ decode bytes = .ok (i, []) ∧
    s.input = bytesAsEvents bytes ++ .resetDuringCommand :: rest :=
  ⟨keyedBlank.withInput [.byte 0x03, .byte 0x00, .resetDuringCommand], [0x03, 0x00], [], .next, rfl, rfl, rfl⟩

theorem witness_CommandFrames_reset : ∃ s t : State, exec .reset s = .next t := ⟨keyedBlank, _, rfl⟩
theorem witness_CommandFrames_setkey : ∃ (key : List Byte) (s t : State), exec (.setkey key) s = .next t ∧
    key.length ≠ 16 :=
  ⟨List.replicate 15 0, keyedBlank, _, rfl, by decide⟩
theorem witness_CommandFrames_setiv_empty : ∃ (iv : List Byte) (s t : State), exec (.setiv iv) s = .next t ∧
    s.keyReady = false ∧ iv.length = 8 :=
  ⟨someIv, State.reset, _, rfl, rfl, rfl⟩
theorem witness_CommandFrames_setiv_length : ∃ (iv : List Byte) (s t : State), exec (.setiv iv) s = .next t ∧
    s.keyReady = true ∧ iv.length ≠ 8 :=
  ⟨List.replicate 9 0, keyedBlank, _, rfl, rfl, by decide⟩
theorem witness_CommandFrames_next : ∃ s t : State, exec .next s = .next t := ⟨keyedBlank, _, rfl⟩

theorem witness_SnapshotHiddenWhileEmpty : ∃ s : State, s.keyReady = false := ⟨State.reset, rfl⟩

theorem witness_RunComposesCommands : ∃ is : List Instr, is ≠ [] ∧ ∀ i ∈ is, i.wf = true :=
  ⟨[.reset, .setkey zeroKey, .setiv someIv, .next], by decide⟩

theorem witness_DecodeAfterEncode : ∃ i : Instr, i.payload.length = 255 ∧ i.wf = true :=
  ⟨.setkey (List.replicate 255 0), by decide +kernel⟩
theorem witness_EncodeAfterDecode : ∃ (bytes rest : List Byte) (i : Instr), decode bytes = .ok (i, rest) :=
  ⟨[0x02, 0x01, 0xFF, 0x03], [0x03], .setiv [0xFF], rfl⟩

theorem witness_DecodeFollowsHeaderTable : ∃ (len : Byte) (data : List Byte), len = 0xFF ∧ data.length = len.toNat :=
  ⟨0xFF, List.replicate 255 0, by decide +kernel⟩

theorem witness_ReservedFramesRefused_op : ∃ (s : State) (op len : Byte) (data : List Byte) (rest : List PortEvent),
    data.length = len.toNat ∧ s.input = bytesAsEvents (op :: len :: data) ++ rest ∧ 4 ≤ op.toNat ∧ op = 0x04 :=
  ⟨withBytes [0x04, 0x00], 0x04, 0x00, [], [], by decide⟩
theorem witness_ReservedFramesRefused_reset : ∃ (s : State) (op len : Byte) (data : List Byte) (rest : List PortEvent),
    data.length = len.toNat ∧ s.input = bytesAsEvents (op :: len :: data) ++ rest ∧ op = 0 ∧ len ≠ 0 :=
  ⟨withBytes [0x00, 0x01, 0x55], 0x00, 0x01, [0x55], [], by decide⟩
theorem witness_ReservedFramesRefused_next : ∃ (s : State) (op len : Byte) (data : List Byte) (rest : List PortEvent),
    data.length = len.toNat ∧ s.input = bytesAsEvents (op :: len :: data) ++ rest ∧ op = 3 ∧ len ≠ 0 :=
  ⟨withBytes [0x03, 0x01, 0x00], 0x03, 0x01, [0x00], [], by decide⟩

theorem witness_WrongLengthFramesExecute_setkey : ∃ (s : State) (len : Byte) (data : List Byte),
    data.length = len.toNat ∧ len.toNat ≠ 16 ∧ s.input = bytesAsEvents (0x01 :: len :: data) :=
  ⟨withBytes (0x01 :: 0x11 :: List.replicate 17 0), 0x11, List.replicate 17 0, by decide⟩
theorem witness_WrongLengthFramesExecute_setiv : ∃ (s : State) (len : Byte) (data : List Byte),
    data.length = len.toNat ∧ len.toNat ≠ 8 ∧ s.input = bytesAsEvents (0x02 :: len :: data) :=
  ⟨withBytes [0x02, 0x00], 0x00, [], by decide⟩

theorem witness_StepRunsTheDecodedCommand : ∃ (s : State) (bytes : List Byte) (rest : List PortEvent) (i : Instr),
    decode bytes = .ok (i, []) ∧ s.input = bytesAsEvents bytes ++ rest ∧
    rest.head? ≠ some .resetDuringCommand :=
  ⟨(State.reset.withInput [.byte 0x03, .byte 0x00, .hardwareReset]), [0x03, 0x00], [.hardwareReset], .next, rfl, rfl,
    by decide⟩

theorem witness_StepWaitsForAWholeFrame : ∃ (s : State) (bytes : List Byte), s.input = bytesAsEvents bytes ∧
    decode bytes = .error .truncated :=
  ⟨withBytes [0x02, 0x01], [0x02, 0x01], rfl, rfl⟩

theorem witness_HardwareResetResult_partial : ∃ (s : State) (bytes : List Byte) (rest : List PortEvent),
    decode bytes = .error .truncated ∧ s.input = bytesAsEvents bytes ++ .hardwareReset :: rest :=
  ⟨keyedBlank.withInput [.byte 0x01, .byte 0x10, .hardwareReset, .byte 0x03], [0x01, 0x10], [.byte 0x03], rfl, rfl⟩
theorem witness_HardwareResetResult_idle : ∃ (s : State) (rest : List PortEvent),
    decode [] = .error .truncated ∧ s.input = bytesAsEvents [] ++ .hardwareReset :: rest :=
  ⟨keyedBlank.withInput [.hardwareReset], [], rfl, rfl⟩
theorem witness_HardwareResetResult_during : ∃ (s : State) (bytes : List Byte) (rest : List PortEvent) (i : Instr),
    decode bytes = .ok (i, []) ∧ s.input = bytesAsEvents bytes ++ .resetDuringCommand :: rest :=
  ⟨keyedBlank.withInput [.byte 0x03, .byte 0x00, .resetDuringCommand], [0x03, 0x00], [], .next, rfl, rfl⟩

theorem witness_ResetDuringCommandWithNoneExecuting_partial : ∃ (s : State) (bytes : List Byte)
    (rest : List PortEvent), decode bytes = .error .truncated ∧
    s.input = bytesAsEvents bytes ++ .resetDuringCommand :: rest :=
  ⟨keyedBlank.withInput [.byte 0x02, .byte 0x08, .byte 0x59, .resetDuringCommand], [0x02, 0x08, 0x59], [], rfl, rfl⟩
theorem witness_ResetDuringCommandWithNoneExecuting_idle : ∃ (s : State) (rest : List PortEvent),
    decode [] = .error .truncated ∧ s.input = bytesAsEvents [] ++ .resetDuringCommand :: rest :=
  ⟨keyedBlank.withInput [.resetDuringCommand, .byte 0x03], [.byte 0x03], rfl, rfl⟩

theorem witness_AssembledProgramRuns : ∃ lines : List AsmLine, lines ≠ [] ∧
    ∀ line ∈ lines, ∀ i ∈ line.expand, i.wf = true :=
  ⟨[.rekey zeroKey, .setivint (Vector.replicate 8 0), .nextn 2], by decide⟩

theorem witness_StepKeepsEmptyHasNoSnapshot : ∃ s t : State, s.EmptyHasNoSnapshot ∧ s.keyReady = false ∧
    step s = .next t :=
  ⟨withBytes [0x03, 0x00], _, fun _ => rfl, rfl, rfl⟩

theorem witness_StepKeepsLifecycle_empty : ∃ s t : State, s.FollowsLifecycle ∧ step s = .next t :=
  ⟨withBytes [0x03, 0x00], _, .inl ⟨rfl, rfl, 0, rfl⟩, rfl⟩
theorem witness_StepKeepsLifecycle_keyed : ∃ s t : State, s.FollowsLifecycle ∧ s.keyReady = true ∧ step s = .next t :=
  ⟨{ engine := keySetup (Vector.replicate 16 0), input := bytesAsEvents [0x03, 0x00], responses := [] }, _,
    .inr ⟨rfl, ⟨_, rfl⟩, 0, .inl rfl⟩, rfl, rfl⟩

theorem witness_StepAddsAtMostOneResponse : ∃ s t : State, step s = .next t ∧ t.responses ≠ s.responses :=
  ⟨withBytes [0x00, 0x00], _, rfl, by decide⟩

end Sys2Proof.Tests
end

section
/-! PROOFS. Who writes and who reads the master snapshot (10_state.md R15). -/

namespace Sys2Proof.Machine

/-! The proofs `(rfl)` are in parentheses as in Laws/State.lean. -/

@[simp] theorem State.withMaster_work (s : State) (m : RegisterSet) :
    (s.withMaster m).engine.work = s.engine.work := (rfl)
@[simp] theorem State.withMaster_master (s : State) (m : RegisterSet) :
    (s.withMaster m).engine.master = m := (rfl)
@[simp] theorem State.withMaster_keyReady (s : State) (m : RegisterSet) :
    (s.withMaster m).engine.keyReady = s.engine.keyReady := (rfl)
@[simp] theorem State.withMaster_input (s : State) (m : RegisterSet) :
    (s.withMaster m).input = s.input := (rfl)
@[simp] theorem State.withMaster_responses (s : State) (m : RegisterSet) :
    (s.withMaster m).responses = s.responses := (rfl)

/-- A successful SETKEY leaves equal working state and snapshot (41_key_schedule.md R85). -/
theorem keySetup_master_eq_work (key : Key) : (keySetup key).master = (keySetup key).work := (rfl)

/-- The writers of the master snapshot: RESET writes zero, a SETKEY of 16 bytes the new working state, and every
other outcome of a command keeps the snapshot. -/
theorem exec_master_cases {i : Instr} {s t : State} (h : exec i s = .next t) :
    t.engine.master = s.engine.master ∨
    (i = .reset ∧ t.engine.master = RegisterSet.zero) ∨
    ∃ key, i = .setkey key ∧ key.length = 16 ∧ t.engine.master = t.engine.work := by
  rcases exec_cases i s with ⟨rfl, h'⟩ | ⟨key, rfl, h'⟩ | ⟨_, -, -, h'⟩ | ⟨_, -, -, h'⟩ | ⟨_, -, -, -, h'⟩ |
    ⟨_, -, -, h'⟩ | ⟨-, h'⟩ <;> cases h'.symm.trans h
  case inl => exact .inr (.inl ⟨rfl, Engine.reset_master⟩)
  case inr.inl => exact .inr (.inr ⟨key.toList, rfl, Vector.length_toList, keySetup_master_eq_work key⟩)
  all_goals exact .inl rfl

/-- SETIV alone reads the master snapshot: the meaning of each other command names the working state at most. -/
theorem exec_withMaster_agrees {i : Instr} (s : State) (m : RegisterSet) (hi : ∀ iv, i ≠ .setiv iv) :
    ∃ t t', exec i s = .next t ∧ exec i (s.withMaster m) = .next t' ∧ t'.engine.work = t.engine.work ∧
      t'.engine.keyReady = t.engine.keyReady ∧ t'.responses = t.responses := by
  cases i with
  | reset => exact ⟨_, _, exec_reset s, exec_reset _, by simp⟩
  | setkey key =>
    by_cases hl : key.length = 16
    · obtain ⟨k, rfl⟩ := exists_vector_of_length hl
      exact ⟨_, _, exec_setkey_exact k s, exec_setkey_exact k _, by simp⟩
    · exact ⟨_, _, exec_setkey_wrong s hl, exec_setkey_wrong _ hl, by simp⟩
  | setiv iv => exact absurd rfl (hi iv)
  | next => exact ⟨_, _, exec_next s, exec_next _, by simp⟩

end Sys2Proof.Machine

namespace Sys2Proof.Proofs

open Sys2Proof.Machine

/-- Settles O32: the writers by the outcome table of the commands, the readers command by command. -/
theorem snapshotAccess : Obligations.SnapshotAccess :=
  ⟨fun _ _ _ => exec_master_cases, fun _ => exec_withMaster_agrees⟩

end Sys2Proof.Proofs
end

section
/-! PROOFS. The buffers' 16-bit units (20_memory.md R32 to R34): the subkeys and the initial load of SETKEY, the IV
sub-words, and the output block of NEXT. -/

namespace Sys2Proof.Machine

/-- A subkey is two neighbouring key bytes, low byte first (20_memory.md R32). -/
theorem subkeys_getElem (key : Key) (j : Fin 8) :
    (subkeys key)[j] = unit16 key[2 * j.val] key[2 * j.val + 1] := by
  match j with
  | 0 | 1 | 2 | 3 | 4 | 5 | 6 | 7 => rfl

theorem subkeys_toNat (key : Key) (j : Fin 8) :
    (subkeys key)[j].toNat = key[2 * j.val].toNat + 256 * key[2 * j.val + 1].toNat := by
  rw [subkeys_getElem, unit16_toNat]

/-- An IV sub-word is two neighbouring IV bytes, low byte first (20_memory.md R33). -/
theorem ivUnits_getElem (iv : Iv) (i : Fin 4) :
    (ivUnits iv)[i] = unit16 iv[2 * i.val] iv[2 * i.val + 1] := by
  match i with
  | 0 | 1 | 2 | 3 => rfl

theorem ivUnits_toNat (iv : Iv) (i : Fin 4) :
    (ivUnits iv)[i].toNat = iv[2 * i.val].toNat + 256 * iv[2 * i.val + 1].toNat := by
  rw [ivUnits_getElem, unit16_toNat]

/-- The word that a table of pairs makes for lane i, as a number: the first unit of the pair is the high half. -/
theorem packPairs_toNat {n : Nat} (pairs : Vector (Fin n × Fin n) 8) (units : Vector Half n) (i : Fin 8) :
    (packPairs pairs units)[i].toNat = units[pairs[i].1].toNat * 2 ^ 16 + units[pairs[i].2].toNat := by
  rw [packPairs_getElem, pack_toNat]
  omega

/-- The state word whose low half goes into output word n (43_keystream_extract.md R101). -/
def extractLowLane : Vector (Fin 8) 8 := #v[0, 3, 2, 5, 4, 7, 6, 1]

/-- The state word whose high half goes into output word n (43_keystream_extract.md R101). -/
def extractHighLane : Vector (Fin 8) 8 := #v[5, 0, 7, 2, 1, 4, 3, 6]

theorem extractWords_getElem (x : Lanes) (n : Fin 8) :
    (extractWords x)[n] = lowHalf x[extractLowLane[n]] ^^^ highHalf x[extractHighLane[n]] := by
  match n with
  | 0 | 1 | 2 | 3 | 4 | 5 | 6 | 7 => rfl

theorem extractWords_toNat (x : Lanes) (n : Fin 8) :
    (extractWords x)[n].toNat =
      (x[extractLowLane[n]].toNat % 2 ^ 16) ^^^ (x[extractHighLane[n]].toNat / 2 ^ 16) := by
  simp only [extractWords_getElem, BitVec.toNat_xor, lowHalf_toNat, highHalf_toNat, Nat.reducePow]

/-- The bytes of a keystream block: output word n, low byte first (20_memory.md R34). -/
theorem keystreamBlock_toNat (w : RegisterSet) (n : Fin 8) :
    (keystreamBlock w)[2 * n.val].toNat = (extractWords w.x)[n].toNat % 2 ^ 8 ∧
    (keystreamBlock w)[2 * n.val + 1].toNat = (extractWords w.x)[n].toNat / 2 ^ 8 := by
  obtain ⟨hlo, hhi⟩ := serialize_getElem (extractWords w.x) n
  exact ⟨(congrArg BitVec.toNat hlo).trans (lowByte_toNat _), (congrArg BitVec.toNat hhi).trans (highByte_toNat _)⟩

end Sys2Proof.Machine

namespace Sys2Proof.Proofs

open Sys2Proof.Machine

/-- Settles O11: each sub-word is the unit of its two bytes. -/
theorem ivUnitsAreLittleEndian : Obligations.IvUnitsAreLittleEndian := ivUnits_toNat

/-- Settles O13: the load packs the subkeys by its tables, and a subkey is its two bytes. -/
theorem keyLoadFollowsPairTable : Obligations.KeyLoadFollowsPairTable := by
  intro key k px pc
  have hk : ∀ j : Fin 8, (subkeys key)[j].toNat = k j := subkeys_toNat key
  refine ⟨hk, fun i => ?_, fun i => ?_, rfl⟩
  · rw [← hk, ← hk]
    exact packPairs_toNat keyPairsX (subkeys key) i
  · rw [← hk, ← hk]
    exact packPairs_toNat keyPairsC (subkeys key) i

/-- Settles O23: the outcome of NEXT, with the block's bytes read off the extraction table. -/
theorem nextResult : Obligations.NextResult := by
  intro s x lo hi
  refine ⟨keystreamBlock (nextState s.engine.work), exec_next s, fun n => ?_⟩
  have hw : (extractWords x)[n].toNat = (x[lo[n]].toNat % 2 ^ 16) ^^^ (x[hi[n]].toNat / 2 ^ 16) :=
    extractWords_toNat x n
  rw [← hw]
  exact keystreamBlock_toNat (nextState s.engine.work) n

end Sys2Proof.Proofs
end

section
/-! PROOFS. The state update (40_state_update.md R70 to R74): what CTRUPD, G and DIFFUSE compute, in the spec's exact
arithmetic. -/

namespace Sys2Proof.Machine

/-- A chain of eight links, its inner values named one by one, is one sequence of nine values. -/
theorem exists_sequence_of_chain {α : Type} {link : Fin 8 → α → α → Prop} {first last : α}
    (h : ∃ b1 b2 b3 b4 b5 b6 b7, link 0 first b1 ∧ link 1 b1 b2 ∧ link 2 b2 b3 ∧ link 3 b3 b4 ∧ link 4 b4 b5 ∧
      link 5 b5 b6 ∧ link 6 b6 b7 ∧ link 7 b7 last) :
    ∃ b : Fin 9 → α, b 0 = first ∧ (∀ i : Fin 8, link i (b i.castSucc) (b i.succ)) ∧ b 8 = last := by
  obtain ⟨b1, b2, b3, b4, b5, b6, b7, h0, h1, h2, h3, h4, h5, h6, h7⟩ := h
  refine ⟨![first, b1, b2, b3, b4, b5, b6, b7, last], rfl, fun i => ?_, rfl⟩
  match i with
  | 0 => exact h0
  | 1 => exact h1
  | 2 => exact h2
  | 3 => exact h3
  | 4 => exact h4
  | 5 => exact h5
  | 6 => exact h6
  | 7 => exact h7

/-- Lane i of CTRUPD, with carry b in, gives its new counter and carry b' out (40_state_update.md R71). -/
def CtrUpdLane (cs : Lanes) (carry : Bool) (i : Fin 8) (b b' : Bool) : Prop :=
  addWithCarry cs[i] increments[i] b = ((ctrUpd cs carry).1[i], b')

theorem CtrUpdLane.sum_toNat {cs : Lanes} {carry : Bool} {i : Fin 8} {b b' : Bool} (h : CtrUpdLane cs carry i b b') :
    (ctrUpd cs carry).1[i].toNat = (cs[i].toNat + increments[i].toNat + b.toNat) % 2 ^ 32 := by
  rw [← addWithCarry_sum_toNat, h]

theorem CtrUpdLane.carry_toNat {cs : Lanes} {carry : Bool} {i : Fin 8} {b b' : Bool}
    (h : CtrUpdLane cs carry i b b') :
    b'.toNat = if 2 ^ 32 ≤ cs[i].toNat + increments[i].toNat + b.toNat then 1 else 0 := by
  rw [← addWithCarry_carry_toNat, h]

/-- CTRUPD as a ripple: one sequence of carries from the stored carry to the one that is stored
(40_state_update.md R71). -/
theorem ctrUpd_ripples (cs : Lanes) (carry : Bool) : ∃ b : Fin 9 → Bool,
    b 0 = carry ∧ (∀ i : Fin 8, CtrUpdLane cs carry i (b i.castSucc) (b i.succ)) ∧ b 8 = (ctrUpd cs carry).2 :=
  exists_sequence_of_chain (ctrUpd_chain cs carry)

/-- The exact square of a word fits in 64 bits (40_state_update.md R72). -/
theorem square_lt (u : Word) : u.toNat * u.toNat < 2 ^ 64 :=
  calc u.toNat * u.toNat < 2 ^ 32 * 2 ^ 32 := Nat.mul_lt_mul'' u.isLt u.isLt
    _ = 2 ^ 64 := by norm_num

theorem square_toNat (u : Word) : (u.setWidth 64 * u.setWidth 64).toNat = u.toNat * u.toNat := by
  rw [BitVec.toNat_mul, BitVec.toNat_setWidth_of_le (by decide), Nat.mod_eq_of_lt (square_lt u)]

theorem gFunction_toNat (x c : Word) :
    (gFunction x c).toNat =
      ((x + c).toNat * (x + c).toNat % 2 ^ 32) ^^^ ((x + c).toNat * (x + c).toNat / 2 ^ 32) := by
  have hhigh : (x + c).toNat * (x + c).toNat / 2 ^ 32 < 2 ^ 32 := Nat.div_lt_of_lt_mul (square_lt (x + c))
  simp only [gFunction, BitVec.toNat_xor, BitVec.extractLsb'_toNat, square_toNat, Nat.shiftRight_eq_div_pow,
    pow_zero, Nat.div_one, Nat.mod_eq_of_lt hhigh]

theorem sum_three_toNat (a b c : Word) : (a + b + c).toNat = (a.toNat + b.toNat + c.toNat) % 2 ^ 32 := by
  rw [BitVec.toNat_add, BitVec.toNat_add, Nat.mod_add_mod]

/-- An even lane of DIFFUSE adds the two lanes before it, both rotated by 16 (40_state_update.md R73). -/
theorem diffuse_even_toNat (g : Lanes) (i : Fin 8) (hi : i.val % 2 = 0) :
    (diffuse g)[i].toNat = (g[i].toNat +
      (g[i - 1].toNat * 2 ^ 16 % 2 ^ 32 + g[i - 1].toNat / 2 ^ 16) +
      (g[i - 2].toNat * 2 ^ 16 % 2 ^ 32 + g[i - 2].toNat / 2 ^ 16)) % 2 ^ 32 := by
  rw [diffuse_getElem, if_pos hi, sum_three_toNat, rotl_sixteen_toNat, rotl_sixteen_toNat]

/-- An odd lane of DIFFUSE adds the lane before it rotated by 8, and the lane before that as it is
(40_state_update.md R73). -/
theorem diffuse_odd_toNat (g : Lanes) (i : Fin 8) (hi : i.val % 2 ≠ 0) :
    (diffuse g)[i].toNat = (g[i].toNat +
      (g[i - 1].toNat * 2 ^ 8 % 2 ^ 32 + g[i - 1].toNat / 2 ^ 24) + g[i - 2].toNat) % 2 ^ 32 := by
  rw [diffuse_getElem, if_neg hi, sum_three_toNat, rotl_eight_toNat]

end Sys2Proof.Machine

namespace Sys2Proof.Proofs

open Sys2Proof.Machine

/-- Settles O3: the carries are those of the ripple, and each lane is one exact addition. -/
theorem ctrUpdRipplesTheCarry : Obligations.CtrUpdRipplesTheCarry := by
  intro cs carry
  obtain ⟨b, hfirst, hlane, hlast⟩ := ctrUpd_ripples cs carry
  exact ⟨fun i => (b i).toNat, congrArg Bool.toNat hfirst,
    fun i => ⟨(hlane i).sum_toNat, (hlane i).carry_toNat⟩, congrArg Bool.toNat hlast⟩

/-- Settles O5: the square is exact and only the sum is reduced. -/
theorem gSquaresTheReducedSum : Obligations.GSquaresTheReducedSum := by
  intro x c u
  have hu : (x + c).toNat = u := BitVec.toNat_add x c
  rw [gFunction_toNat, hu]

/-- Settles O7: the even lanes and the odd lanes of DIFFUSE, the operands' indices counted mod 8. -/
theorem diffuseSumsRotatedLanes : Obligations.DiffuseSumsRotatedLanes := fun g =>
  ⟨diffuse_even_toNat g 0 rfl, diffuse_odd_toNat g 1 (by decide),
    diffuse_even_toNat g 2 rfl, diffuse_odd_toNat g 3 (by decide),
    diffuse_even_toNat g 4 rfl, diffuse_odd_toNat g 5 (by decide),
    diffuse_even_toNat g 6 rfl, diffuse_odd_toNat g 7 (by decide)⟩

/-- Settles O2: the table is read off, and its period checked at each of the eight lanes. -/
theorem incrementTable : Obligations.IncrementTable := ⟨rfl, by decide⟩

/-- Settles O8: the g values are those of the old state words and the counters that CTRUPD has made. -/
theorem nextStateOrder : Obligations.NextStateOrder := fun w =>
  ⟨gValues w.x (nextState w).c, nextState_c w, nextState_carry w,
    fun i => gValues_getElem w.x (nextState w).c i i.isLt, nextState_x w⟩

end Sys2Proof.Proofs
end

section
/-! PROOFS. SETKEY at 16 bytes and at every other length (41_key_schedule.md R81, R83 to R85). -/

namespace Sys2Proof.Machine

/-- Key setup with its four NEXTSTATE written out (41_key_schedule.md R83). -/
theorem keySetup_eq (key : Key) :
    keySetup key =
      Engine.snapshot (reinject (nextState (nextState (nextState (nextState (keyLoad key)))))) := (rfl)

end Sys2Proof.Machine

namespace Sys2Proof.Proofs

open Sys2Proof.Machine

/-- Settles O14: the outcome of a SETKEY of 16 bytes, its engine the snapshot of the re-injected state, and the
re-injection read lane by lane. -/
theorem setkeyResult : Obligations.SetkeyResult := by
  intro key s w w'
  have hinject : reinject w = w' := reinject_eq w
  have hsetup : keySetup key = Engine.snapshot w' := by rw [keySetup_eq, hinject]
  calc exec (.setkey key.toList) s
    _ = .next (s.complete (keySetup key) .ok) := exec_setkey_exact key s
    _ = .next (s.complete (Engine.snapshot w') .ok) := by rw [hsetup]

/-- Settles O15: the outcome of a SETKEY of another length is the error with the engine as it was. -/
theorem setkeyWrongLength : Obligations.SetkeyWrongLength := fun _ s hlength => exec_setkey_wrong s hlength

end Sys2Proof.Proofs
end

section
/-! PROOFS. SETIV at 8 bytes on a Keyed engine, and what it leaves unchanged at every length in every state
(42_iv_schedule.md R92, R94, R95). -/

namespace Sys2Proof.Machine

/-- IV setup with its four NEXTSTATE written out (42_iv_schedule.md R94). -/
theorem ivSetup_eq (master : RegisterSet) (iv : Iv) :
    ivSetup master iv = nextState (nextState (nextState (nextState (injectIv iv master)))) := (rfl)

/-- A Keyed engine with a new working state, register by register. -/
theorem Engine.withWork_keyed {e : Engine} (h : e.keyReady = true) (w : RegisterSet) :
    e.withWork w = { work := w, master := e.master, keyReady := true } := by
  rw [← h, Engine.withWork]

/-- SETIV's frame (42_iv_schedule.md R95): whichever way it ends, the working state is all it can write of the
engine. -/
theorem exec_setiv_writes_work_only (iv : List Byte) (s : State) :
    ∃ w r, exec (.setiv iv) s = .next (s.complete (s.engine.withWork w) r) := by
  cases hk : s.engine.keyReady with
  | false => exact ⟨s.engine.work, .error .keyNotSet, exec_setiv_empty iv hk⟩
  | true =>
    by_cases hl : iv.length = 8
    · obtain ⟨v, rfl⟩ := exists_vector_of_length hl
      exact ⟨ivSetup s.engine.master v, .ok, exec_setiv_exact v hk⟩
    · exact ⟨s.engine.work, .error .invalidLength, exec_setiv_wrong hk hl⟩

end Sys2Proof.Machine

namespace Sys2Proof.Proofs

open Sys2Proof.Machine

/-- Settles O18: the outcome of a SETIV of 8 bytes on a Keyed engine, IV setup starting from the snapshot. -/
theorem setivResult : Obligations.SetivResult := by
  intro iv s hkeyed w
  calc exec (.setiv iv.toList) s
    _ = .next (s.complete (s.engine.withWork (ivSetup w iv)) .ok) := exec_setiv_exact iv hkeyed
    _ = .next (s.complete { work := nextState (nextState (nextState (nextState (injectIv iv w)))),
                            master := w, keyReady := true } .ok) := by
      rw [Engine.withWork_keyed hkeyed, ivSetup_eq]

/-- Settles O20: every outcome of SETIV writes the working state only, so that the snapshot and keyReady stay. -/
theorem setivKeepsSnapshot : Obligations.SetivKeepsSnapshot := by
  intro iv s
  obtain ⟨w, r, hexec⟩ := exec_setiv_writes_work_only iv s
  exact ⟨_, hexec, by simp⟩

end Sys2Proof.Proofs
end

section
/-! PROOFS. NEXT repeated: the keystream blocks in order, one NEXTSTATE each (43_keystream_extract.md R104). -/

namespace Sys2Proof.Machine

/-- The responses of m NEXT from the working state w: the blocks of the 1st to the m-th NEXTSTATE after it. -/
def keystream (m : Nat) (w : RegisterSet) : List Response :=
  (List.range m).map fun n => .block (keystreamBlock (nextStates (n + 1) w))

@[simp] theorem keystream_zero (w : RegisterSet) : keystream 0 w = [] := (rfl)

/-- The keystream begins with one block and goes on from the state that block was taken from. -/
theorem keystream_succ (m : Nat) (w : RegisterSet) :
    keystream (m + 1) w = .block (keystreamBlock (nextState w)) :: keystream m (nextState w) := by
  simp only [keystream, List.range_succ_eq_map, List.map_cons, List.map_map, Function.comp_def,
    nextStates_succ, nextStates_zero]

/-- The whole effect of m NEXT: the working state and the responses move on, all else stays. -/
theorem execAll_replicate_next (m : Nat) (s : State) :
    execAll (List.replicate m .next) s =
      .next { engine := s.engine.withWork (nextStates m s.engine.work)
              input := s.input
              responses := s.responses ++ keystream m s.engine.work } := by
  induction m generalizing s with
  | zero => simp [Engine.withWork]
  | succ m ih =>
    rw [List.replicate_succ, execAll_cons _ (exec_next s), ih]
    simp only [State.complete_engine, State.complete_input, State.complete_responses, Engine.withWork_work,
      Engine.withWork_withWork, nextStates_succ, keystream_succ, List.append_assoc, List.singleton_append]

end Sys2Proof.Machine

namespace Sys2Proof.Proofs

open Sys2Proof.Machine

/-- Settles O24: the working state and the responses of the whole effect of m NEXT. -/
theorem nextSequenceIsTheKeystream : Obligations.NextSequenceIsTheKeystream := fun m s =>
  ⟨_, execAll_replicate_next m s, Engine.withWork_work _ _, rfl⟩

end Sys2Proof.Proofs
end

section
/-! PROOFS. The two input checks: when a command answers an error, and what it then leaves unchanged
(60_exceptions.md R121, R123, R128). -/

namespace Sys2Proof.Machine

/-- The input checks, the only two causes of an error (60_exceptions.md R128): the length check of SETKEY, and the
keyReady and length checks of SETIV. -/
def InputCheckFails (i : Instr) (s : State) : Prop :=
  (∃ key, i = .setkey key ∧ key.length ≠ 16) ∨
  (∃ iv, i = .setiv iv ∧ (s.keyReady = false ∨ iv.length ≠ 8))

/-- The two ways a command can end: a check fails and the error is raised, or it completes with a response that is no
error. -/
theorem exec_raises_or_succeeds (i : Instr) (s : State) :
    (InputCheckFails i s ∧ ∃ err, exec i s = .next (s.raise err)) ∨
    (∃ e r, exec i s = .next (s.complete e r) ∧ ∀ err, r ≠ .error err) := by
  rcases exec_cases i s with ⟨-, h⟩ | ⟨_, -, h⟩ | ⟨key, hi, hl, h⟩ | ⟨iv, hi, hk, h⟩ | ⟨iv, hi, -, hl, h⟩ |
    ⟨_, -, -, h⟩ | ⟨-, h⟩
  case inr.inr.inl => exact .inl ⟨.inl ⟨key, hi, hl⟩, _, h⟩
  case inr.inr.inr.inl => exact .inl ⟨.inr ⟨iv, hi, .inl hk⟩, _, h⟩
  case inr.inr.inr.inr.inl => exact .inl ⟨.inr ⟨iv, hi, .inr hl⟩, _, h⟩
  all_goals exact .inr ⟨_, _, h, nofun⟩

/-- A command whose new response is an error has done nothing but raise it. -/
theorem exec_error_eq_raise {i : Instr} {s t : State} {err : EngineError} (h : exec i s = .next t)
    (hr : t.responses = s.responses ++ [.error err]) : t = s.raise err := by
  rcases exec_raises_or_succeeds i s with ⟨-, err', h'⟩ | ⟨e, r, h', hne⟩ <;> cases h'.symm.trans h
  · have herr : err' = err := by simpa using hr
    rw [herr]
  · have herr : r = .error err := by simpa using hr
    exact absurd herr (hne err)

/-- SETKEY's response by the length of its payload (60_exceptions.md R121). -/
theorem exec_setkey_invalidLength_iff (key : List Byte) (s : State) :
    ∃ t r, exec (.setkey key) s = .next t ∧ t.responses = s.responses ++ [r] ∧
      (r = .error .invalidLength ↔ key.length ≠ 16) := by
  by_cases hl : key.length = 16
  · obtain ⟨k, rfl⟩ := exists_vector_of_length hl
    exact ⟨_, _, exec_setkey_exact k s, rfl, by simp⟩
  · exact ⟨_, _, exec_setkey_wrong s hl, rfl, by simp [hl]⟩

/-- SETIV's response on a Keyed engine by the length of its payload (60_exceptions.md R121). -/
theorem exec_setiv_invalidLength_iff (iv : List Byte) {s : State} (hk : s.engine.keyReady = true) :
    ∃ t r, exec (.setiv iv) s = .next t ∧ t.responses = s.responses ++ [r] ∧
      (r = .error .invalidLength ↔ iv.length ≠ 8) := by
  by_cases hl : iv.length = 8
  · obtain ⟨v, rfl⟩ := exists_vector_of_length hl
    exact ⟨_, _, exec_setiv_exact v hk, rfl, by simp⟩
  · exact ⟨_, _, exec_setiv_wrong hk hl, rfl, by simp [hl]⟩

end Sys2Proof.Machine

namespace Sys2Proof.Proofs

open Sys2Proof.Machine

/-- Settles O27: the response of SETKEY and of SETIV, read off at the right length and at every other. -/
theorem invalidLengthExactlyAtWrongLength : Obligations.InvalidLengthExactlyAtWrongLength :=
  ⟨exec_setkey_invalidLength_iff, fun iv _ hk => exec_setiv_invalidLength_iff iv hk⟩

/-- Settles O28: a command that answers an error has raised it, and raising keeps the engine and the input. -/
theorem errorsLeaveNoTrace : Obligations.ErrorsLeaveNoTrace := by
  intro i s t err h hr
  obtain rfl := exec_error_eq_raise h hr
  exact ⟨State.raise_engine s err, State.raise_input s err, rfl⟩

/-- Settles O29: a command raises an error only where a check fails; the type of faults has no constructor
(notes/assumptions/13.md). -/
theorem noFailureBeyondTheChecks : Obligations.NoFailureBeyondTheChecks := by
  refine ⟨fun i s => ?_, fun _ f => nomatch f⟩
  rcases exec_raises_or_succeeds i s with ⟨hfails, err, h⟩ | ⟨e, r, h, hne⟩
  · exact ⟨_, .error err, h, State.raise_responses s err, fun _ _ => hfails⟩
  · exact ⟨_, r, h, State.complete_responses s e r, fun err herr => absurd herr (hne err)⟩

end Sys2Proof.Proofs
end

section
/-! PROOFS. The command frame (30_encoding.md R51 to R54): each well-formed command has one frame and each whole frame
at most one command. -/

namespace Sys2Proof

/-- A whole frame decodes to the command of its code and payload (30_encoding.md R54). -/
theorem decodeFrame_eq_ok_iff {op len : Byte} {data : List Byte} (hlen : data.length = len.toNat) (i : Instr) :
    decodeFrame op len data = .ok i ↔ op = i.opcode ∧ data = i.payload := by
  constructor
  · intro h
    unfold decodeFrame at h
    split_ifs at h with hreset hzero hsetkey hsetiv hnext hzero <;> cases h
    · exact ⟨hreset, List.length_eq_zero_iff.mp (by simp [hlen, hzero])⟩
    · exact ⟨hsetkey, rfl⟩
    · exact ⟨hsetiv, rfl⟩
    · exact ⟨hnext, List.length_eq_zero_iff.mp (by simp [hlen, hzero])⟩
  · rintro ⟨rfl, rfl⟩
    cases i with
    | reset => exact if_pos (BitVec.eq_of_toNat_eq (y := 0) hlen.symm)
    | setkey key => rfl
    | setiv iv => rfl
    | next => exact if_pos (BitVec.eq_of_toNat_eq (y := 0) hlen.symm)

theorem decodeFrame_reservedOp {op : Byte} (len : Byte) (data : List Byte) (hop : 4 ≤ op.toNat) :
    decodeFrame op len data = .error (.reservedOp op) := by
  have hne : ∀ b : Byte, b.toNat < 4 → op ≠ b := by
    rintro b hb rfl
    omega
  simp only [decodeFrame, if_neg (hne 0x00 (by decide)), if_neg (hne 0x01 (by decide)),
    if_neg (hne 0x02 (by decide)), if_neg (hne 0x03 (by decide))]

theorem decodeFrame_reservedLength {op len : Byte} (data : List Byte) (hop : op = 0 ∨ op = 3) (hlen : len ≠ 0) :
    decodeFrame op len data = .error (.reservedLength op len) := by
  rcases hop with rfl | rfl <;> exact if_neg hlen

/-- The LEN byte of a well-formed command is its payload's length (30_encoding.md R52). -/
theorem Instr.wf_iff_length_eq_toNat (i : Instr) :
    i.wf = true ↔ i.payload.length = (BitVec.ofNat 8 i.payload.length).toNat := by
  rw [Instr.wf_iff, BitVec.toNat_ofNat]
  omega

theorem decode_encode_append {i : Instr} (rest : List Byte) (h : i.wf = true) :
    decode (encode i ++ rest) = .ok (i, rest) := by
  have hlen := i.wf_iff_length_eq_toNat.mp h
  have hframe := (decodeFrame_eq_ok_iff hlen i).mpr ⟨rfl, rfl⟩
  change decode (i.opcode :: BitVec.ofNat 8 i.payload.length :: (i.payload ++ rest)) = _
  rw [decode_frame _ _ _ _ hlen, hframe]

theorem decode_encode {i : Instr} (h : i.wf = true) : decode (encode i) = .ok (i, []) := by
  simpa using decode_encode_append [] h

theorem wf_and_encode_append_of_decode {bytes rest : List Byte} {i : Instr} (h : decode bytes = .ok (i, rest)) :
    i.wf = true ∧ encode i ++ rest = bytes := by
  obtain ⟨op, len, data, rfl, hlen, hframe⟩ := decode_ok_frame h
  obtain ⟨rfl, rfl⟩ := (decodeFrame_eq_ok_iff hlen i).mp hframe
  have hbyte : BitVec.ofNat 8 i.payload.length = len := by rw [hlen, BitVec.ofNat_toNat, BitVec.setWidth_eq]
  refine ⟨i.wf_iff_length_eq_toNat.mpr (by rw [hbyte, hlen]), ?_⟩
  simp only [encode, hbyte, List.cons_append]

/-- Decoding exactly one whole frame, with nothing left over. -/
theorem decode_whole_frame (op len : Byte) (data : List Byte) (hlen : data.length = len.toNat) :
    decode (op :: len :: data) = (decodeFrame op len data).map fun i => (i, []) := by
  have h := decode_frame op len data [] hlen
  rw [List.append_nil] at h
  rw [h]
  cases decodeFrame op len data <;> rfl

theorem decode_whole_frame_eq_ok_iff (op : Byte) {len : Byte} {data : List Byte} (hlen : data.length = len.toNat)
    (i : Instr) : decode (op :: len :: data) = .ok (i, []) ↔ op = i.opcode ∧ data = i.payload := by
  rw [decode_whole_frame op len data hlen, ← decodeFrame_eq_ok_iff hlen]
  cases decodeFrame op len data <;> simp [Except.map]

/-- The header word hdr = OP + 256 * LEN of a frame (30_encoding.md R54). -/
def frameHeader (op len : Byte) : BitVec 16 := BitVec.ofNat 16 (op.toNat + 256 * len.toNat)

theorem frameHeader_toNat (op len : Byte) : (frameHeader op len).toNat = op.toNat + 256 * len.toNat := by
  rw [frameHeader, BitVec.toNat_ofNat, Nat.mod_eq_of_lt (by omega)]

/-- The mask of RESET and NEXT selects OP and LEN (30_encoding.md R54). -/
theorem frameHeader_and_ffff_eq_iff (op len : Byte) (code : BitVec 16) (hcode : code.toNat < 256) :
    frameHeader op len &&& 0xFFFF = code ↔ op.toNat = code.toNat ∧ len.toNat = 0 := by
  have hmask : frameHeader op len &&& 0xFFFF = frameHeader op len := BitVec.and_allOnes
  rw [hmask, ← BitVec.toNat_inj, frameHeader_toNat]
  omega

/-- The mask of SETKEY and SETIV selects OP (30_encoding.md R54). -/
theorem frameHeader_and_00ff_eq_iff (op len : Byte) (code : BitVec 16) :
    frameHeader op len &&& 0x00FF = code ↔ op.toNat = code.toNat := by
  have hmask : (frameHeader op len &&& 0x00FF).toNat = op.toNat := by
    rw [BitVec.toNat_and, frameHeader_toNat]
    change (op.toNat + 256 * len.toNat) &&& (2 ^ 8 - 1) = _
    rw [Nat.and_two_pow_sub_one_eq_mod]
    omega
  rw [← BitVec.toNat_inj, hmask]

theorem decode_without_payload_iff_header (op : Byte) {len : Byte} {data : List Byte} (hlen : data.length = len.toNat)
    (i : Instr) (code : BitVec 16) (hpayload : i.payload = []) (hcode : code.toNat = i.opcode.toNat) :
    decode (op :: len :: data) = .ok (i, []) ↔ frameHeader op len &&& 0xFFFF = code := by
  rw [decode_whole_frame_eq_ok_iff op hlen, frameHeader_and_ffff_eq_iff op len code (by omega), hpayload, hcode,
    BitVec.toNat_inj, ← hlen, List.length_eq_zero_iff]

theorem decode_with_payload_iff_header (op : Byte) {len : Byte} {data : List Byte} (hlen : data.length = len.toNat)
    (i : Instr) (code : BitVec 16) (hpayload : i.payload = data) (hcode : code.toNat = i.opcode.toNat) :
    decode (op :: len :: data) = .ok (i, []) ↔ frameHeader op len &&& 0x00FF = code := by
  rw [decode_whole_frame_eq_ok_iff op hlen, frameHeader_and_00ff_eq_iff, hpayload, hcode, BitVec.toNat_inj,
    and_iff_left rfl]

end Sys2Proof

namespace Sys2Proof.Proofs

/-- Settles O38: the LEN byte of a well-formed command is its payload's length, so that the decoder takes the payload
and no more, and the code and the payload give the command back. -/
theorem decodeAfterEncode : Obligations.DecodeAfterEncode := fun _ rest h => decode_encode_append rest h

/-- Settles O39: what decodes is a whole frame, whose code, LEN byte and payload are those of the command read. -/
theorem encodeAfterDecode : Obligations.EncodeAfterDecode := fun _ _ _ h => wf_and_encode_append_of_decode h

/-- Settles O40: the mask of each row selects OP and LEN, or OP alone. -/
theorem decodeFollowsHeaderTable : Obligations.DecodeFollowsHeaderTable := fun op _ data hlen =>
  ⟨decode_without_payload_iff_header op hlen .reset 0x0000 rfl rfl,
    decode_with_payload_iff_header op hlen (.setkey data) 0x0001 rfl rfl,
    decode_with_payload_iff_header op hlen (.setiv data) 0x0002 rfl rfl,
    decode_without_payload_iff_header op hlen .next 0x0003 rfl rfl⟩

/-- Settles O43: the four frames are those of the encoder. -/
theorem specFramesDecode : Obligations.SpecFramesDecode :=
  ⟨decode_encode (i := .reset) rfl, decode_encode (i := .setkey _) rfl, decode_encode (i := .setiv _) rfl,
    decode_encode (i := .next) rfl⟩

end Sys2Proof.Proofs
end

section
/-! PROOFS. The port and the step (70_reset_and_hazards.md R140 to R146; 30_encoding.md R58, R59): what a step does at
each arrival, and which arrival the events at the port make. -/

namespace Sys2Proof.Machine

/-! ## The step at each arrival -/

theorem step_of_waiting {s : State} (h : nextArrival s.input = .waiting) : step s = .next s := by
  simp only [step, h]

theorem step_of_reset {s : State} {rest : List PortEvent} (h : nextArrival s.input = .reset rest) :
    step s = .next (s.withInput rest).hardwareReset := by
  simp only [step, h]

theorem step_of_frame {s : State} {bytes leftover : List Byte} {rest : List PortEvent} {i : Instr}
    (h : nextArrival s.input = .frame bytes rest) (hd : decode bytes = .ok (i, leftover)) :
    step s = exec i (s.withInput rest) := by
  simp only [step, h, hd]

theorem step_of_frame_error {s : State} {bytes : List Byte} {rest : List PortEvent} {e : DecodeError}
    (h : nextArrival s.input = .frame bytes rest) (hd : decode bytes = .error e) : step s = rejectFrame s e := by
  simp only [step, h, hd]

theorem step_of_interrupted {s : State} {bytes : List Byte} {rest : List PortEvent} {p : Instr × List Byte}
    (h : nextArrival s.input = .interrupted bytes rest) (hd : decode bytes = .ok p) :
    step s = .next (s.withInput rest).hardwareReset := by
  simp only [step, h, hd]

theorem step_of_interrupted_error {s : State} {bytes : List Byte} {rest : List PortEvent} {e : DecodeError}
    (h : nextArrival s.input = .interrupted bytes rest) (hd : decode bytes = .error e) :
    step s = rejectFrame s e := by
  simp only [step, h, hd]

theorem rejectFrame_eq_next {s t : State} {e : DecodeError} (h : rejectFrame s e = .next t) : t = s := by
  cases e <;> cases h
  rfl

/-! ## Part of a frame, or nothing, at the port -/

/-- A part of a frame is waited for (70_reset_and_hazards.md R141). -/
theorem nextArrival_truncated {bytes : List Byte} (h : decode bytes = .error .truncated) :
    nextArrival (bytesAsEvents bytes) = .waiting := by
  rcases decode_truncated h with rfl | ⟨b, rfl⟩ | ⟨op, len, data, rfl, hshort⟩
  · rfl
  · rfl
  · exact takePayload_short data [len, op] hshort

/-- A reset event of either kind after a part of a frame is a hardware reset (notes/assumptions/4.md). -/
theorem nextArrival_truncated_reset {bytes : List Byte} (h : decode bytes = .error .truncated) {e : PortEvent}
    (he : e = .hardwareReset ∨ e = .resetDuringCommand) (rest : List PortEvent) :
    nextArrival (bytesAsEvents bytes ++ e :: rest) = .reset rest := by
  rcases decode_truncated h with rfl | ⟨b, rfl⟩ | ⟨op, len, data, rfl, hshort⟩
  · rcases he with rfl | rfl <;> rfl
  · rcases he with rfl | rfl <;> rfl
  · exact takePayload_reset data [len, op] hshort he rest

theorem step_truncated_reset {s : State} {bytes : List Byte} (h : decode bytes = .error .truncated) {e : PortEvent}
    (he : e = .hardwareReset ∨ e = .resetDuringCommand) {rest : List PortEvent}
    (hs : s.input = bytesAsEvents bytes ++ e :: rest) : step s = .next (s.withInput rest).hardwareReset :=
  step_of_reset (by rw [hs, nextArrival_truncated_reset h he])

/-! ## A whole frame at the port -/

/-- A frame that decodes is run, unless a hardware reset comes while its command executes. -/
theorem step_runs_decoded {s : State} {bytes : List Byte} {rest : List PortEvent} {i : Instr}
    (hd : decode bytes = .ok (i, [])) (hs : s.input = bytesAsEvents bytes ++ rest)
    (hrest : rest.head? ≠ some .resetDuringCommand) : step s = exec i (s.withInput rest) := by
  obtain ⟨op, len, data, rfl, hlen, -⟩ := decode_ok_frame hd
  rw [List.append_nil] at hd hs
  exact step_of_frame (by rw [hs, nextArrival_frame op len data rest hlen hrest]) hd

/-- A hardware reset while the command executes leaves the reset registers, and the command is not done
(70_reset_and_hazards.md R142). -/
theorem step_interrupts_decoded {s : State} {bytes : List Byte} {rest : List PortEvent} {i : Instr}
    (hd : decode bytes = .ok (i, [])) (hs : s.input = bytesAsEvents bytes ++ .resetDuringCommand :: rest) :
    step s = .next (s.withInput rest).hardwareReset := by
  obtain ⟨op, len, data, rfl, hlen, -⟩ := decode_ok_frame hd
  rw [List.append_nil] at hd hs
  exact step_of_interrupted (by rw [hs, nextArrival_interrupted op len data rest hlen]) hd

/-- A reserved frame is rejected whatever follows it, a hardware reset during its command included. -/
theorem step_rejects_frame {s : State} {op len : Byte} {data : List Byte} {rest : List PortEvent} {e : DecodeError}
    (hlen : data.length = len.toNat) (hs : s.input = bytesAsEvents (op :: len :: data) ++ rest)
    (hframe : decodeFrame op len data = .error e) : step s = rejectFrame s e := by
  have hd : decode (op :: len :: data) = .error e := by
    rw [decode_whole_frame op len data hlen, hframe]
    rfl
  by_cases hrest : rest.head? = some .resetDuringCommand
  · obtain ⟨es, rfl⟩ := List.head?_eq_some_iff.mp hrest
    exact step_of_interrupted_error (by rw [hs, nextArrival_interrupted op len data es hlen]) hd
  · exact step_of_frame_error (by rw [hs, nextArrival_frame op len data rest hlen hrest]) hd

/-- A frame at the port with nothing after it, whose LEN says its length, runs its command. -/
theorem step_runs_lone_frame {s : State} {i : Instr} {len : Byte} (hlen : i.payload.length = len.toNat)
    (hs : s.input = bytesAsEvents (i.opcode :: len :: i.payload)) : step s = exec i (s.withInput []) :=
  step_runs_decoded ((decode_whole_frame_eq_ok_iff i.opcode hlen i).mpr ⟨rfl, rfl⟩)
    (hs.trans (List.append_nil _).symm) nofun

/-- The responses after a step: those before it, or the one of the command in the frame that was taken. -/
theorem step_responses {s t : State} (h : step s = .next t) : t.responses = s.responses ∨
    ∃ r bytes rest, t.responses = s.responses ++ [r] ∧ nextArrival s.input = .frame bytes rest := by
  cases harrival : nextArrival s.input with
  | waiting =>
    cases (step_of_waiting harrival).symm.trans h
    exact .inl rfl
  | reset rest =>
    cases (step_of_reset harrival).symm.trans h
    exact .inl rfl
  | frame bytes rest =>
    cases hd : decode bytes with
    | error e =>
      rw [step_of_frame_error harrival hd] at h
      exact .inl (congrArg State.responses (rejectFrame_eq_next h))
    | ok p =>
      obtain ⟨e, r, hexec⟩ := exec_completes p.1 (s.withInput rest)
      cases ((step_of_frame harrival hd).trans hexec).symm.trans h
      exact .inr ⟨r, bytes, rest, rfl, rfl⟩
  | interrupted bytes rest =>
    cases hd : decode bytes with
    | error e =>
      rw [step_of_interrupted_error harrival hd] at h
      exact .inl (congrArg State.responses (rejectFrame_eq_next h))
    | ok p =>
      cases (step_of_interrupted harrival hd).symm.trans h
      exact .inl rfl

end Sys2Proof.Machine

namespace Sys2Proof.Proofs

open Sys2Proof.Machine

/-- Settles O41: both kinds of reserved frame are decode errors, and a step answers a decode error with its refusal. -/
theorem reservedFramesRefused : Obligations.ReservedFramesRefused := fun _ _ len data _ hlen hs =>
  ⟨fun hop => step_rejects_frame hlen hs (decodeFrame_reservedOp len data hop),
    fun hop hne => step_rejects_frame hlen hs (decodeFrame_reservedLength data hop hne)⟩

/-- Settles O42: the frame runs its command, whose check then fails, keyReady's before the length's. -/
theorem wrongLengthFramesExecute : Obligations.WrongLengthFramesExecute := by
  intro s len data hlen
  refine ⟨fun hwrong hs => ?_, fun hwrong hs => ?_⟩
  · have hstep : step s = exec (.setkey data) (s.withInput []) := step_runs_lone_frame (i := .setkey data) hlen hs
    rw [hstep]
    exact exec_setkey_wrong _ (hlen ▸ hwrong)
  · have hstep : step s = exec (.setiv data) (s.withInput []) := step_runs_lone_frame (i := .setiv data) hlen hs
    rw [hstep]
    cases hk : s.keyReady with
    | false => exact exec_setiv_empty data hk
    | true => exact exec_setiv_wrong hk (hlen ▸ hwrong)

/-- Settles O44: the frame that decodes is taken whole, and nothing but the port's input changes before it runs. -/
theorem stepRunsTheDecodedCommand : Obligations.StepRunsTheDecodedCommand := fun _ _ _ _ hd hs hrest =>
  step_runs_decoded hd hs hrest

/-- Settles O45: bytes that decode to truncated are no whole frame for the port either. -/
theorem stepWaitsForAWholeFrame : Obligations.StepWaitsForAWholeFrame := fun _ _ hs hd =>
  step_of_waiting (by rw [hs, nextArrival_truncated hd])

/-- Settles O46: the reset between commands or after a part of a frame, and the reset that interrupts a command. -/
theorem hardwareResetResult : Obligations.HardwareResetResult :=
  ⟨fun _ _ _ hd hs => step_truncated_reset hd (.inl rfl) hs, fun _ _ _ _ hd hs => step_interrupts_decoded hd hs⟩

/-- Settles O55: with no command executing the event acts as the other reset event does. -/
theorem resetDuringCommandWithNoneExecuting : Obligations.ResetDuringCommandWithNoneExecuting :=
  fun _ _ _ hd hs => step_truncated_reset hd (.inr rfl) hs

/-- Settles O54: only a frame that decodes and runs adds a response, and its command adds one. -/
theorem stepAddsAtMostOneResponse : Obligations.StepAddsAtMostOneResponse := fun _ _ h => step_responses h

end Sys2Proof.Proofs
end

section
/-! PROOFS. The invariants of the machine (10_state.md R18, R19): what each command can leave in the registers, and
that every step keeps the lifecycle. -/

namespace Sys2Proof.Machine

/-- The five things a command can do to the registers: keep them, RESET, a successful SETKEY, a successful SETIV, NEXT
(10_state.md R27). -/
theorem exec_engine_cases {i : Instr} {s t : State} (h : exec i s = .next t) :
    t.engine = s.engine ∨ t.engine = Engine.reset ∨ (∃ key, t.engine = keySetup key) ∨
    (s.engine.keyReady = true ∧ ∃ iv, t.engine = s.engine.withWork (ivSetup s.engine.master iv)) ∨
    t.engine = s.engine.withWork (nextState s.engine.work) := by
  rcases exec_cases i s with ⟨-, h'⟩ | ⟨key, -, h'⟩ | ⟨_, -, -, h'⟩ | ⟨_, -, -, h'⟩ | ⟨_, -, -, -, h'⟩ |
    ⟨iv, -, hk, h'⟩ | ⟨-, h'⟩ <;> cases h'.symm.trans h
  case inl => exact .inr (.inl rfl)
  case inr.inl => exact .inr (.inr (.inl ⟨key, rfl⟩))
  case inr.inr.inr.inr.inr.inl => exact .inr (.inr (.inr (.inl ⟨hk, iv, rfl⟩)))
  case inr.inr.inr.inr.inr.inr => exact .inr (.inr (.inr (.inr rfl)))
  all_goals exact .inl rfl

@[simp] theorem keySetup_keyReady (key : Key) : (keySetup key).keyReady = true := (rfl)

/-! ## Empty means a zero snapshot (10_state.md R19) -/

/-- `State.EmptyHasNoSnapshot`, as a property of the registers. -/
def Engine.EmptyHasNoSnapshot (e : Engine) : Prop :=
  e.keyReady = false → e.master = RegisterSet.zero

theorem State.emptyHasNoSnapshot_iff (s : State) : s.EmptyHasNoSnapshot ↔ s.engine.EmptyHasNoSnapshot := Iff.rfl

theorem Engine.reset_emptyHasNoSnapshot : Engine.reset.EmptyHasNoSnapshot := fun _ => Engine.reset_master

theorem keySetup_emptyHasNoSnapshot (key : Key) : (keySetup key).EmptyHasNoSnapshot := fun hempty =>
  absurd ((keySetup_keyReady key).symm.trans hempty) nofun

theorem Engine.EmptyHasNoSnapshot.withWork {e : Engine} (h : e.EmptyHasNoSnapshot) (w : RegisterSet) :
    (e.withWork w).EmptyHasNoSnapshot := h

theorem exec_keeps_emptyHasNoSnapshot {i : Instr} {s t : State} (hs : s.engine.EmptyHasNoSnapshot)
    (h : exec i s = .next t) : t.engine.EmptyHasNoSnapshot := by
  rcases exec_engine_cases h with ht | ht | ⟨key, ht⟩ | ⟨-, iv, ht⟩ | ht <;> rw [ht]
  · exact hs
  · exact Engine.reset_emptyHasNoSnapshot
  · exact keySetup_emptyHasNoSnapshot key
  · exact hs.withWork _
  · exact hs.withWork _

/-! ## The lifecycle (10_state.md R18) -/

/-- The working state is reached by NEXT alone from the snapshot, or from the setup of some IV from it
(42_iv_schedule.md R96, R97). -/
def Engine.WorkFromSnapshot (e : Engine) : Prop :=
  ∃ n, e.work = nextStates n e.master ∨ ∃ iv, e.work = nextStates n (ivSetup e.master iv)

/-- The Empty stage: no snapshot, and a working state some number of NEXTSTATE after zero. -/
def Engine.IsEmptyStage (e : Engine) : Prop :=
  e.keyReady = false ∧ e.master = RegisterSet.zero ∧ ∃ n, e.work = nextStates n RegisterSet.zero

/-- The Keyed stage: some key's snapshot, and a working state reached from it. -/
def Engine.IsKeyedStage (e : Engine) : Prop :=
  e.keyReady = true ∧ (∃ key, e.master = (keySetup key).master) ∧ e.WorkFromSnapshot

/-- `State.FollowsLifecycle`, as a property of the registers. -/
def Engine.FollowsLifecycle (e : Engine) : Prop :=
  e.IsEmptyStage ∨ e.IsKeyedStage

theorem State.followsLifecycle_iff (s : State) : s.FollowsLifecycle ↔ s.engine.FollowsLifecycle := Iff.rfl

theorem Engine.reset_isEmptyStage : Engine.reset.IsEmptyStage :=
  ⟨Engine.reset_keyReady, Engine.reset_master, 0, Engine.reset_work⟩

theorem keySetup_isKeyedStage (key : Key) : (keySetup key).IsKeyedStage :=
  ⟨keySetup_keyReady key, ⟨key, rfl⟩, 0, .inl (keySetup_master_eq_work key).symm⟩

/-- A successful SETIV keeps the Keyed stage: the setup of its IV, zero NEXTSTATE on. -/
theorem Engine.IsKeyedStage.withWork_ivSetup {e : Engine} (h : e.IsKeyedStage) (iv : Iv) :
    (e.withWork (ivSetup e.master iv)).IsKeyedStage := by
  obtain ⟨hk, hkey, -⟩ := h
  exact ⟨hk, hkey, 0, .inr ⟨iv, rfl⟩⟩

/-- NEXT keeps the Empty stage: one more NEXTSTATE from zero (decision D9). -/
theorem Engine.IsEmptyStage.withWork_nextState {e : Engine} (h : e.IsEmptyStage) :
    (e.withWork (nextState e.work)).IsEmptyStage := by
  obtain ⟨hk, hmaster, n, hwork⟩ := h
  exact ⟨hk, hmaster, n + 1, by rw [nextStates_succ_last, ← hwork, Engine.withWork_work]⟩

/-- NEXT keeps the Keyed stage: one more NEXTSTATE from where the working state started. -/
theorem Engine.IsKeyedStage.withWork_nextState {e : Engine} (h : e.IsKeyedStage) :
    (e.withWork (nextState e.work)).IsKeyedStage := by
  obtain ⟨hk, hkey, n, hwork | ⟨iv, hwork⟩⟩ := h
  · exact ⟨hk, hkey, n + 1, .inl (by
      rw [nextStates_succ_last, Engine.withWork_master, ← hwork, Engine.withWork_work])⟩
  · exact ⟨hk, hkey, n + 1, .inr ⟨iv, by
      rw [nextStates_succ_last, Engine.withWork_master, ← hwork, Engine.withWork_work]⟩⟩

theorem Engine.FollowsLifecycle.isKeyedStage {e : Engine} (h : e.FollowsLifecycle) (hk : e.keyReady = true) :
    e.IsKeyedStage := by
  rcases h with ⟨hempty, -⟩ | hkeyed
  · exact absurd (hk.symm.trans hempty) nofun
  · exact hkeyed

theorem exec_keeps_followsLifecycle {i : Instr} {s t : State} (hs : s.engine.FollowsLifecycle)
    (h : exec i s = .next t) : t.engine.FollowsLifecycle := by
  rcases exec_engine_cases h with ht | ht | ⟨key, ht⟩ | ⟨hk, iv, ht⟩ | ht <;> rw [ht]
  · exact hs
  · exact .inl Engine.reset_isEmptyStage
  · exact .inr (keySetup_isKeyedStage key)
  · exact .inr ((hs.isKeyedStage hk).withWork_ivSetup iv)
  · exact hs.imp Engine.IsEmptyStage.withWork_nextState Engine.IsKeyedStage.withWork_nextState

end Sys2Proof.Machine

namespace Sys2Proof.Proofs

open Sys2Proof.Machine

/-- Settles O51: a hardware reset establishes the invariant and every command keeps it. -/
theorem stepKeepsEmptyHasNoSnapshot : Obligations.StepKeepsEmptyHasNoSnapshot := fun s t hs h =>
  t.emptyHasNoSnapshot_iff.mpr <| step_keeps Engine.reset_emptyHasNoSnapshot
    (fun _ _ _ => exec_keeps_emptyHasNoSnapshot) (s.emptyHasNoSnapshot_iff.mp hs) h

/-- Settles O53: a hardware reset leads to the Empty stage, and every command keeps the lifecycle. -/
theorem stepKeepsLifecycle : Obligations.StepKeepsLifecycle := fun s t hs h =>
  t.followsLifecycle_iff.mpr <| step_keeps (.inl Engine.reset_isEmptyStage)
    (fun _ _ _ => exec_keeps_followsLifecycle) (s.followsLifecycle_iff.mp hs) h

/-- Settles O50: the snapshot of the reset registers is zero. -/
theorem resetHasNoSnapshot : Obligations.ResetHasNoSnapshot :=
  State.reset.emptyHasNoSnapshot_iff.mpr Engine.reset_emptyHasNoSnapshot

/-- Settles O52: the reset registers are those of the Empty stage. -/
theorem resetFollowsLifecycle : Obligations.ResetFollowsLifecycle :=
  State.reset.followsLifecycle_iff.mpr (.inl Engine.reset_isEmptyStage)

end Sys2Proof.Proofs
end

section
/-! PROOFS. The state update (40_state_update.md): CTRUPD as one addition, the single-word form of g, and what NEXTSTATE
does not depend on. -/

namespace Sys2Proof.Machine

/-- The increments as one 256-bit number, A256 (40_state_update.md R71). -/
theorem counterNumber_increments :
    counterNumber increments = 0xD34D34D34D34D34D34D34D34D34D34D34D34D34D34D34D34D34D34D34D34D34D := by
  decide

/-- The exact sum of a lane whose word and carry out are known (40_state_update.md R76). -/
theorem exact_of_addWithCarry_eq {a b sum : Word} {carryIn carryOut : Bool}
    (h : addWithCarry a b carryIn = (sum, carryOut)) :
    sum.toNat + 2 ^ 32 * carryOut.toNat = a.toNat + b.toNat + carryIn.toNat := by
  rw [← addWithCarry_exact, h]

/-- CTRUPD is one exact addition: the carry between two lanes leaves one equation with the weight it enters the next
with. -/
theorem ctrUpd_counterNumber (cs : Lanes) (carry : Bool) :
    counterNumber (ctrUpd cs carry).1 + 2 ^ 256 * (ctrUpd cs carry).2.toNat =
      counterNumber cs + counterNumber increments + carry.toNat := by
  obtain ⟨b1, b2, b3, b4, b5, b6, b7, h0, h1, h2, h3, h4, h5, h6, h7⟩ := ctrUpd_chain cs carry
  simp only [counterNumber]
  linear_combination exact_of_addWithCarry_eq h0 + 2 ^ 32 * exact_of_addWithCarry_eq h1 +
    2 ^ 64 * exact_of_addWithCarry_eq h2 + 2 ^ 96 * exact_of_addWithCarry_eq h3 +
    2 ^ 128 * exact_of_addWithCarry_eq h4 + 2 ^ 160 * exact_of_addWithCarry_eq h5 +
    2 ^ 192 * exact_of_addWithCarry_eq h6 + 2 ^ 224 * exact_of_addWithCarry_eq h7

/-- The high half of a square, from the halves of its root, with no number above 32 bits
(93_implementation_defined.md G2). -/
theorem square_div_two_pow_32 (a b : Nat) :
    (a + 2 ^ 16 * b) * (a + 2 ^ 16 * b) / 2 ^ 32 = (a * a / 2 ^ 17 + a * b) / 2 ^ 15 + b * b := by
  have hsquare : (a + 2 ^ 16 * b) * (a + 2 ^ 16 * b) = a * a + 2 ^ 17 * (a * b) + 2 ^ 32 * (b * b) := by ring
  rw [hsquare]
  generalize a * a = aa, a * b = ab, b * b = bb
  omega

/-- The high half of the square as the single-word form computes it, from the two halves of the root
(93_implementation_defined.md G2). -/
def squareHigh (a b : Word) : Word := ((((a * a) >>> 17) + a * b) >>> 15) + b * b

theorem gSingleWord_eq (u : Word) : gSingleWord u = squareHigh (u &&& 0xFFFF) (u >>> 16) ^^^ (u * u) := (rfl)

/-- No step of the single-word form overflows. -/
theorem squareHigh_toNat {a b : Word} (ha : a.toNat ≤ 2 ^ 16 - 1) (hb : b.toNat ≤ 2 ^ 16 - 1) :
    (squareHigh a b).toNat = (a.toNat * a.toNat / 2 ^ 17 + a.toNat * b.toNat) / 2 ^ 15 + b.toNat * b.toNat := by
  have haa := Nat.mul_le_mul ha ha
  have hab := Nat.mul_le_mul ha hb
  have hbb := Nat.mul_le_mul hb hb
  simp only [squareHigh, BitVec.toNat_add, BitVec.toNat_mul, BitVec.toNat_ushiftRight, Nat.shiftRight_eq_div_pow]
  revert haa hab hbb
  generalize a.toNat * a.toNat = aa, a.toNat * b.toNat = ab, b.toNat * b.toNat = bb
  omega

theorem squareHigh_halves_toNat (u : Word) :
    (squareHigh (u &&& 0xFFFF) (u >>> 16)).toNat = u.toNat * u.toNat / 2 ^ 32 := by
  have hu := u.isLt
  have ha : (u &&& 0xFFFF).toNat = u.toNat % 2 ^ 16 := Nat.and_two_pow_sub_one_eq_mod u.toNat 16
  have hb : (u >>> 16).toNat = u.toNat / 2 ^ 16 := by
    rw [BitVec.toNat_ushiftRight, Nat.shiftRight_eq_div_pow]
  rw [squareHigh_toNat (by omega) (by omega), ha, hb, ← square_div_two_pow_32, Nat.mod_add_div]

theorem gSingleWord_eq_gFunction (x c : Word) : gSingleWord (x + c) = gFunction x c := by
  apply BitVec.eq_of_toNat_eq
  rw [gSingleWord_eq, gFunction_toNat, BitVec.toNat_xor, squareHigh_halves_toNat, BitVec.toNat_mul, Nat.xor_comm]

/-- The counter system runs on its own (40_state_update.md R74, corner case (a)). -/
theorem nextStates_counters_congr (n : Nat) {w w' : RegisterSet} (hc : w.c = w'.c) (hcarry : w.carry = w'.carry) :
    (nextStates n w).c = (nextStates n w').c ∧ (nextStates n w).carry = (nextStates n w').carry := by
  induction n generalizing w w' with
  | zero => exact ⟨hc, hcarry⟩
  | succ n ih =>
    rw [nextStates_succ, nextStates_succ]
    exact ih (by simp only [nextState_c, hc, hcarry]) (by simp only [nextState_carry, hc, hcarry])

/-- Lane i of DIFFUSE reads the g values of its own lane and of the two lanes before it. -/
theorem diffuse_congr {g g' : Lanes} {i : Fin 8} (h0 : g[i] = g'[i]) (h1 : g[i - 1] = g'[i - 1])
    (h2 : g[i - 2] = g'[i - 2]) : (diffuse g)[i] = (diffuse g')[i] := by
  rw [diffuse_getElem, diffuse_getElem, h0, h1, h2]

theorem gValues_congr {xs xs' : Lanes} (cs : Lanes) {j : Fin 8} (h : xs[j] = xs'[j]) :
    (gValues xs cs)[j] = (gValues xs' cs)[j] :=
  calc (gValues xs cs)[j]
    _ = gFunction xs[j] cs[j] := gValues_getElem xs cs j j.isLt
    _ = gFunction xs'[j] cs[j] := by rw [h]
    _ = (gValues xs' cs)[j] := (gValues_getElem xs' cs j j.isLt).symm

end Sys2Proof.Machine

namespace Sys2Proof.Proofs

open Sys2Proof.Machine

/-- Settles O4: the eight exact additions, each with the weight of its lane, add up to one. -/
theorem ctrUpdIsOne256BitAddition : Obligations.CtrUpdIsOne256BitAddition := fun cs carry =>
  counterNumber_increments ▸ ctrUpd_counterNumber cs carry

/-- Settles O6: the single-word form computes the high half of the exact square, no step of it overflowing. -/
theorem gSingleWordFormAgrees : Obligations.GSingleWordFormAgrees := gSingleWord_eq_gFunction

/-- Settles O9: CTRUPD reads the counters and the carry alone. -/
theorem counterSystemIgnoresStateWords : Obligations.CounterSystemIgnoresStateWords := fun n _ _ =>
  nextStates_counters_congr n

/-- Settles O10: lane i of DIFFUSE reads three g values, and a g value reads one old state word. -/
theorem newStateWordDependsOnThreeLanes : Obligations.NewStateWordDependsOnThreeLanes := by
  intro w w' i hc hcarry h0 h1 h2
  rw [nextState_x, nextState_x, ← hc, ← hcarry]
  exact diffuse_congr (gValues_congr _ h0) (gValues_congr _ h1) (gValues_congr _ h2)

end Sys2Proof.Proofs
end

section
/-! PROOFS. One command at a time (10_state.md R18, R27; 30_encoding.md R56): its one response, its lifecycle
transition, what it leaves unchanged and what its outcome does not depend on. -/

namespace Sys2Proof.Machine

/-- A command's one response, which carries a block exactly for NEXT. -/
theorem exec_one_response (i : Instr) (s : State) :
    ∃ e r, exec i s = .next (s.complete e r) ∧ ((∃ out, r = .block out) ↔ i = .next) := by
  rcases exec_cases i s with ⟨rfl, h⟩ | ⟨_, rfl, h⟩ | ⟨_, rfl, -, h⟩ | ⟨_, rfl, -, h⟩ | ⟨_, rfl, -, -, h⟩ |
    ⟨_, rfl, -, h⟩ | ⟨rfl, h⟩ <;> exact ⟨_, _, h, by simp⟩

theorem exec_setkey_keyReady (key : List Byte) (s : State) : ∃ t, exec (.setkey key) s = .next t ∧
    t.engine.keyReady = if key.length = 16 then true else s.engine.keyReady := by
  by_cases hl : key.length = 16
  · obtain ⟨k, rfl⟩ := exists_vector_of_length hl
    exact ⟨_, exec_setkey_exact k s, by simp⟩
  · exact ⟨_, exec_setkey_wrong s hl, by simp [hl]⟩

theorem exec_keeps_input_and_responses {i : Instr} {s t : State} (h : exec i s = .next t) :
    t.input = s.input ∧ s.responses <+: t.responses := by
  obtain ⟨e, r, h'⟩ := exec_completes i s
  cases h'.symm.trans h
  exact ⟨rfl, List.prefix_append s.responses [r]⟩

theorem exec_setkey_keeps_engine {key : List Byte} {s t : State} (h : exec (.setkey key) s = .next t)
    (hl : key.length ≠ 16) : t.engine = s.engine := by
  cases (exec_setkey_wrong s hl).symm.trans h
  rfl

theorem exec_setiv_keeps_snapshot {iv : List Byte} {s t : State} (h : exec (.setiv iv) s = .next t) :
    t.engine.master = s.engine.master ∧ t.engine.keyReady = s.engine.keyReady := by
  obtain ⟨w, r, h'⟩ := exec_setiv_writes_work_only iv s
  cases h'.symm.trans h
  exact ⟨rfl, rfl⟩

theorem exec_setiv_keeps_engine {iv : List Byte} {s t : State} (h : exec (.setiv iv) s = .next t)
    (hfails : s.engine.keyReady = false ∨ iv.length ≠ 8) : t.engine = s.engine := by
  cases hk : s.engine.keyReady with
  | false =>
    cases (exec_setiv_empty iv hk).symm.trans h
    rfl
  | true =>
    cases (exec_setiv_wrong hk (hfails.resolve_left (by simp [hk]))).symm.trans h
    rfl

theorem exec_next_keeps_snapshot {s t : State} (h : exec .next s = .next t) :
    t.engine.master = s.engine.master ∧ t.engine.keyReady = s.engine.keyReady := by
  cases (exec_next s).symm.trans h
  exact ⟨rfl, rfl⟩

end Sys2Proof.Machine

namespace Sys2Proof.Proofs

open Sys2Proof.Machine

/-- Settles O30: each row of the outcome table adds one response, and the row of NEXT alone a block. -/
theorem oneResponsePerCommand : Obligations.OneResponsePerCommand := by
  intro i s
  obtain ⟨e, r, h, hblock⟩ := exec_one_response i s
  exact ⟨_, r, h, State.complete_input s e r, State.complete_responses s e r, hblock⟩

/-- Settles O31: each row of the transition table by the command's outcome, the hardware resets by the step's. -/
theorem lifecycleTransitions : Obligations.LifecycleTransitions := by
  refine ⟨fun s => ⟨_, exec_reset s, Engine.reset_keyReady⟩, exec_setkey_keyReady, fun iv s => ?_,
    fun s => ⟨_, exec_next s, rfl⟩, fun s bytes rest i hreset => ?_⟩
  · obtain ⟨w, r, h⟩ := exec_setiv_writes_work_only iv s
    exact ⟨_, h, Engine.withWork_keyReady s.engine w⟩
  · rcases hreset with ⟨hd, hs⟩ | ⟨hd, hs⟩
    · exact ⟨_, step_truncated_reset hd (.inl rfl) hs, Engine.reset_keyReady⟩
    · exact ⟨_, step_interrupts_decoded hd hs, Engine.reset_keyReady⟩

/-- Settles O33: the port's record by what all commands share, the registers command by command. -/
theorem commandFrames : Obligations.CommandFrames := by
  intro i s t h
  obtain ⟨hinput, hresponses⟩ := exec_keeps_input_and_responses h
  refine ⟨hinput, hresponses, ?_⟩
  cases i with
  | reset => trivial
  | setkey key => exact exec_setkey_keeps_engine h
  | setiv iv =>
    obtain ⟨hmaster, hkeyReady⟩ := exec_setiv_keeps_snapshot h
    exact ⟨hmaster, hkeyReady, fun hfails => congrArg Engine.work (exec_setiv_keeps_engine h hfails)⟩
  | next => exact exec_next_keeps_snapshot h

/-- Settles O1: the reset registers lane by lane, and nothing at the port. -/
theorem resetStateIsZero : Obligations.ResetStateIsZero :=
  ⟨by decide, rfl, rfl, rfl, step_of_waiting rfl⟩

/-- Settles O16: the engine after a SETKEY of 16 bytes is the key's setup, in which no register before it stands. -/
theorem setkeyForgetsHistory : Obligations.SetkeyForgetsHistory := fun key s s' =>
  ⟨_, _, _, _, exec_setkey_exact key s, exec_setkey_exact key s',
    (execAll_cons _ (exec_reset s)).trans (execAll_cons [] (exec_setkey_exact key _)),
    (execAll_cons _ (exec_setkey_exact key s)).trans (execAll_cons [] (exec_setkey_exact key _)),
    rfl, rfl, rfl⟩

/-- Settles O19: the outcome of SETIV on an Empty engine. -/
theorem setivKeyNotSet : Obligations.SetivKeyNotSet := fun iv _ hempty => exec_setiv_empty iv hempty

/-- Settles O25: the outcome of NEXT names the working state and the responses alone. -/
theorem nextIgnoresKeyReady : Obligations.NextIgnoresKeyReady := fun s _ _ =>
  ⟨_, _, exec_next s, exec_next _, rfl, rfl⟩

/-- Settles O26: the outcome of RESET. -/
theorem resetCommandResult : Obligations.ResetCommandResult := exec_reset

/-- Settles O47: the status bytes read off, and a block's 16 bytes counted. -/
theorem responseBytes : Obligations.ResponseBytes :=
  ⟨rfl, rfl, rfl, fun out => ⟨rfl, by simp [Response.bytes]⟩⟩

end Sys2Proof.Proofs
end

section
/-! PROOFS. Sequences of commands (20_memory.md R41, R42): the keystream after SETKEY with and without SETIV, what an
Empty engine hides, and the run of the machine over the frames of a sequence. -/

namespace Sys2Proof.Machine

/-! ## The keystream after SETKEY and SETIV -/

/-- SETKEY and m NEXT: the blocks start from the master snapshot itself (42_iv_schedule.md R96). -/
theorem execAll_setkey_next (key : Key) (m : Nat) (s : State) :
    execAll (.setkey key.toList :: List.replicate m .next) s =
      .next { engine := (keySetup key).withWork (nextStates m (keySetup key).master)
              input := s.input
              responses := s.responses ++ .ok :: keystream m (keySetup key).master } := by
  rw [execAll_cons _ (exec_setkey_exact key s), execAll_replicate_next, State.complete_engine, State.complete_input,
    State.complete_responses, List.append_assoc, List.singleton_append, keySetup_master_eq_work]

/-- SETKEY, SETIV and m NEXT: the blocks start from the IV's setup. -/
theorem execAll_setkey_setiv_next (key : Key) (iv : Iv) (m : Nat) (s : State) :
    execAll (.setkey key.toList :: .setiv iv.toList :: List.replicate m .next) s =
      .next { engine := (keySetup key).withWork (nextStates m (ivSetup (keySetup key).master iv))
              input := s.input
              responses := s.responses ++ .ok :: .ok :: keystream m (ivSetup (keySetup key).master iv) } := by
  have hkeyed : (s.complete (keySetup key) .ok).engine.keyReady = true := keySetup_keyReady key
  rw [execAll_cons _ (exec_setkey_exact key s), execAll_cons _ (exec_setiv_exact iv hkeyed), execAll_replicate_next]
  simp only [State.complete_engine, State.complete_input, State.complete_responses, Engine.withWork_work,
    Engine.withWork_withWork, List.append_assoc, List.cons_append, List.nil_append]

theorem keystream_length (m : Nat) (w : RegisterSet) : (keystream m w).length = m := by
  simp [keystream]

/-- SETIV and one NEXT on a Keyed engine: the block after the IV's setup, the snapshot kept. -/
theorem execAll_setiv_next {s : State} (hk : s.engine.keyReady = true) (iv : Iv) :
    ∃ t, execAll [.setiv iv.toList, .next] s = .next t ∧ t.engine.master = s.engine.master ∧
      t.engine.keyReady = true ∧
      t.responses = s.responses ++ [.ok, .block (keystreamBlock (nextState (ivSetup s.engine.master iv)))] :=
  ⟨_, (execAll_cons _ (exec_setiv_exact iv hk)).trans (execAll_cons [] (exec_next _)), rfl, hk, by simp⟩

theorem execAll_append {is : List Instr} {s t : State} (js : List Instr) (h : execAll is s = .next t) :
    execAll (is ++ js) s = execAll js t := by
  induction is generalizing s with
  | nil =>
    cases h
    rfl
  | cons i is ih =>
    obtain ⟨e, r, hexec⟩ := exec_completes i s
    rw [execAll_cons is hexec] at h
    rw [List.cons_append, execAll_cons _ hexec, ih h]

/-! ## What an Empty engine hides (10_state.md R23) -/

theorem execAll_completes (is : List Instr) (s : State) : ∃ t, execAll is s = .next t := by
  induction is generalizing s with
  | nil => exact ⟨s, rfl⟩
  | cons i is ih =>
    obtain ⟨e, r, h⟩ := exec_completes i s
    rw [execAll_cons is h]
    exact ih _

/-- On an Empty engine a command keeps the difference of two snapshots hidden: either it leaves equal states, or the
engine is Empty still and the states differ in the snapshot alone. -/
theorem exec_withMaster_of_empty (i : Instr) {s : State} (m : RegisterSet) (hempty : s.engine.keyReady = false) :
    ∃ t t', exec i s = .next t ∧ exec i (s.withMaster m) = .next t' ∧
      (t' = t ∨ (t.engine.keyReady = false ∧ t' = t.withMaster m)) := by
  cases i with
  | reset => exact ⟨_, _, exec_reset s, exec_reset _, .inl rfl⟩
  | setkey key =>
    by_cases hl : key.length = 16
    · obtain ⟨k, rfl⟩ := exists_vector_of_length hl
      exact ⟨_, _, exec_setkey_exact k s, exec_setkey_exact k _, .inl rfl⟩
    · exact ⟨_, _, exec_setkey_wrong s hl, exec_setkey_wrong _ hl, .inr ⟨hempty, rfl⟩⟩
  | setiv iv => exact ⟨_, _, exec_setiv_empty iv hempty, exec_setiv_empty iv hempty, .inr ⟨hempty, rfl⟩⟩
  | next => exact ⟨_, _, exec_next s, exec_next _, .inr ⟨hempty, rfl⟩⟩

theorem execAll_withMaster_of_empty (is : List Instr) {s : State} (m : RegisterSet)
    (hempty : s.engine.keyReady = false) : ∃ t t',
    execAll is s = .next t ∧ execAll is (s.withMaster m) = .next t' ∧ t'.responses = t.responses := by
  induction is generalizing s with
  | nil => exact ⟨s, _, rfl, rfl, State.withMaster_responses s m⟩
  | cons i is ih =>
    obtain ⟨u, u', hu, hu', hrel⟩ := exec_withMaster_of_empty i m hempty
    rw [execAll_cons is hu, execAll_cons is hu']
    rcases hrel with rfl | ⟨hempty', rfl⟩
    · obtain ⟨t, ht⟩ := execAll_completes is u'
      exact ⟨t, t, ht, ht, rfl⟩
    · exact ih hempty'

/-! ## The run over the frames of a sequence (20_memory.md R41) -/

/-- No command reads what the host has still to present. -/
theorem exec_ignores_input (i : Instr) (s : State) :
    ∃ e r, ∀ es, exec i (s.withInput es) = .next ((s.complete e r).withInput es) := by
  cases i with
  | reset => exact ⟨_, _, fun es => exec_reset (s.withInput es)⟩
  | setkey key =>
    by_cases hl : key.length = 16
    · obtain ⟨k, rfl⟩ := exists_vector_of_length hl
      exact ⟨_, _, fun es => exec_setkey_exact k (s.withInput es)⟩
    · exact ⟨_, _, fun es => exec_setkey_wrong (s.withInput es) hl⟩
  | setiv iv =>
    cases hk : s.engine.keyReady with
    | false => exact ⟨_, _, fun es => exec_setiv_empty (s := s.withInput es) iv hk⟩
    | true =>
      by_cases hl : iv.length = 8
      · obtain ⟨v, rfl⟩ := exists_vector_of_length hl
        exact ⟨s.engine.withWork (ivSetup s.engine.master v), _, fun es => exec_setiv_exact (s := s.withInput es) v hk⟩
      · exact ⟨_, _, fun es => exec_setiv_wrong (s := s.withInput es) hk hl⟩
  | next => exact ⟨s.engine.withWork (nextState s.engine.work), .block (keystreamBlock (nextState s.engine.work)),
    fun es => exec_next (s.withInput es)⟩

theorem present_cons (i : Instr) (is : List Instr) : present (i :: is) = bytesAsEvents (encode i) ++ present is := by
  simp [present]

/-- The host presents bytes, and no reset event. -/
theorem present_head?_ne_reset (is : List Instr) : (present is).head? ≠ some .resetDuringCommand := by
  cases is with
  | nil => nofun
  | cons i is =>
    rw [present_cons]
    nofun

/-- The first of the frames at the port runs its command, and the other frames stay there. -/
theorem step_present_cons {i : Instr} (is : List Instr) (s : State) (h : i.wf = true) :
    step (s.withInput (present (i :: is))) = exec i (s.withInput (present is)) :=
  step_runs_decoded (decode_encode h) (present_cons i is) (present_head?_ne_reset is)

theorem run_succ_of_step {M : Host.Core} {n : Nat} {s t : M.State} (h : M.step s = .next t) :
    M.run (n + 1) s = M.run n t := by
  simp only [Host.Core.run, h]

theorem run_present (is : List Instr) (s : State) (hwf : ∀ i ∈ is, i.wf = true) :
    Sys2Proof.core.run is.length (s.withInput (present is)) = execAll is (s.withInput []) := by
  induction is generalizing s with
  | nil => rfl
  | cons i is ih =>
    rw [List.forall_mem_cons] at hwf
    obtain ⟨hi, his⟩ := hwf
    obtain ⟨e, r, hexec⟩ := exec_ignores_input i s
    have hstep : Sys2Proof.core.step (s.withInput (present (i :: is))) =
        .next ((s.complete e r).withInput (present is)) := (step_present_cons is s hi).trans (hexec _)
    rw [List.length_cons, run_succ_of_step hstep, execAll_cons is (hexec []), ih _ his]

/-- A program's frames are those of the commands its lines stand for (30_encoding.md R61). -/
theorem bytesAsEvents_assembleLines (lines : List AsmLine) :
    bytesAsEvents (assembleLines lines) = present (lines.flatMap AsmLine.expand) := rfl

end Sys2Proof.Machine

namespace Sys2Proof.Proofs

open Sys2Proof.Machine

/-- Settles O21: SETIV starts from the snapshot, which SETIV and NEXT keep, so that the setup of V1 comes again. -/
theorem setivRestartsTheKeystream : Obligations.SetivRestartsTheKeystream := by
  intro v1 v2 s hk
  obtain ⟨t, hfirst, hmaster, hkeyed, hresponses⟩ := execAll_setiv_next hk v1
  have hsecond := exec_setiv_exact v2 hkeyed
  obtain ⟨u, hlast, -, -, hresponses'⟩ := execAll_setiv_next
    (s := t.complete (t.engine.withWork (ivSetup t.engine.master v2)) .ok) hkeyed v1
  refine ⟨u, keystreamBlock (nextState (ivSetup s.engine.master v1)), ?_, ?_, fun w =>
    ⟨_, _, exec_setiv_exact v1 hk, exec_setiv_exact v1 hk, rfl⟩⟩
  · calc execAll ([.setiv v1.toList, .next] ++ [.setiv v2.toList, .setiv v1.toList, .next]) s
      _ = execAll [.setiv v2.toList, .setiv v1.toList, .next] t := execAll_append _ hfirst
      _ = execAll [.setiv v1.toList, .next] (t.complete (t.engine.withWork (ivSetup t.engine.master v2)) .ok) :=
        execAll_cons _ hsecond
      _ = .next u := hlast
  · simp only [hresponses', State.complete_responses, State.complete_engine, Engine.withWork_master, hresponses,
      hmaster, List.append_assoc, List.cons_append, List.nil_append]

/-- Settles O34: by induction on the sequence, each command keeping the difference of the snapshots hidden. -/
theorem snapshotHiddenWhileEmpty : Obligations.SnapshotHiddenWhileEmpty := fun is _ m hempty =>
  execAll_withMaster_of_empty is m hempty

/-- Settles O35: the whole effect of the sequence names no register of the state before it. -/
theorem keystreamDependsOnKeyAndIv : Obligations.KeystreamDependsOnKeyAndIv := fun key iv m s s' =>
  ⟨_, _, _, execAll_setkey_setiv_next key iv m s, execAll_setkey_setiv_next key iv m s', rfl, rfl,
    by simp [keystream_length], rfl⟩

/-- Settles O36: the working state and the responses of the whole effect of SETKEY and m NEXT. -/
theorem noIvKeystreamStartsAtSnapshot : Obligations.NoIvKeystreamStartsAtSnapshot := fun key m s =>
  ⟨_, execAll_setkey_next key m s, rfl, rfl⟩

/-- Settles O37: by induction on the sequence, each step taking one frame and running its command. -/
theorem runComposesCommands : Obligations.RunComposesCommands := run_present

/-- Settles O48: the run over the frames of the expanded sequence. -/
theorem assembledProgramRuns : Obligations.AssembledProgramRuns := by
  intro lines s hwf
  have hall : ∀ i ∈ lines.flatMap AsmLine.expand, i.wf = true := by
    intro i hi
    obtain ⟨line, hline, hexpand⟩ := List.mem_flatMap.mp hi
    exact hwf line hline i hexpand
  rw [bytesAsEvents_assembleLines, run_present _ s hall]

/-- Settles O49: each expansion read off, a printed integer being its bytes reversed. -/
theorem pseudoInstructionExpansions : Obligations.PseudoInstructionExpansions :=
  ⟨fun _ => rfl, fun _ => rfl, fun _ => by rw [Vector.toList_reverse]; rfl,
    fun _ => by rw [Vector.toList_reverse]; rfl⟩

end Sys2Proof.Proofs
end

section
/-! PROOFS. The buffers as little-endian integers (20_memory.md R35) and the IV injection (42_iv_schedule.md R93). -/

namespace Sys2Proof.Machine

/-- Dividing a little-endian integer by 2^(8k) drops its first k bytes. -/
theorem littleEndian_div (l : List Byte) (k : Nat) : littleEndian l / 2 ^ (8 * k) = littleEndian (l.drop k) := by
  induction k generalizing l with
  | zero => simp
  | succ k ih =>
    cases l with
    | nil => simp [littleEndian]
    | cons b bs =>
      have hb := b.isLt
      have hhead : littleEndian (b :: bs) / 2 ^ 8 = littleEndian bs := by
        simp only [littleEndian]
        omega
      rw [Nat.mul_succ, Nat.add_comm, Nat.pow_add, ← Nat.div_div_eq_div_mul, hhead, ih, List.drop_succ_cons]

/-- The 16-bit slice k of a little-endian integer is its bytes 2k and 2k + 1, low byte first. -/
theorem littleEndian_slice {l : List Byte} {k : Nat} (h : 2 * k + 1 < l.length) :
    littleEndian l / 2 ^ (16 * k) % 2 ^ 16 = l[2 * k].toNat + 256 * l[2 * k + 1].toNat := by
  have hlo := l[2 * k].isLt
  have hhi := l[2 * k + 1].isLt
  have hpow : 16 * k = 8 * (2 * k) := by omega
  rw [hpow, littleEndian_div, List.drop_eq_getElem_cons (by omega), List.drop_eq_getElem_cons h]
  simp only [littleEndian]
  omega

theorem littleEndian_toList_slice {n : Nat} (v : Vector Byte n) {k : Nat} (h : 2 * k + 1 < n) :
    littleEndian v.toList / 2 ^ (16 * k) % 2 ^ 16 = v[2 * k].toNat + 256 * v[2 * k + 1].toNat := by
  rw [littleEndian_slice (by rwa [Vector.length_toList]), Vector.getElem_toList, Vector.getElem_toList]

theorem lowByte_add_highByte (w : Half) : (lowByte w).toNat + 256 * (highByte w).toNat = w.toNat := by
  rw [lowByte_toNat, highByte_toNat, Nat.mod_add_div]

theorem injectIv_c_getElem (iv : Iv) (w : RegisterSet) (i : Fin 8) :
    (injectIv iv w).c[i] = w.c[i] ^^^ (packPairs ivPairs (ivUnits iv))[i] := by
  simp [injectIv]

theorem injectIv_x (iv : Iv) (w : RegisterSet) : (injectIv iv w).x = w.x := (rfl)
theorem injectIv_carry (iv : Iv) (w : RegisterSet) : (injectIv iv w).carry = w.carry := (rfl)

/-- The eight words of the all-zero IV are zero, and XOR with zero changes no counter (42_iv_schedule.md R90). -/
theorem injectIv_zero (w : RegisterSet) : injectIv (Vector.replicate 8 0) w = w := by
  have hwords : ∀ i : Fin 8, (packPairs ivPairs (ivUnits (Vector.replicate 8 0)))[i] = 0 := by decide
  have hc : (injectIv (Vector.replicate 8 0) w).c = w.c := by
    ext1 i hi
    have hlane := injectIv_c_getElem (Vector.replicate 8 0) w ⟨i, hi⟩
    rw [hwords] at hlane
    exact hlane.trans BitVec.xor_zero
  exact congrArg (fun c => RegisterSet.mk w.x c w.carry) hc

end Sys2Proof.Machine

namespace Sys2Proof.Proofs

open Sys2Proof.Machine

/-- Settles O12: a unit is two neighbouring bytes, which are a 16-bit slice of the buffer's integer. -/
theorem buffersAreLittleEndianIntegers : Obligations.BuffersAreLittleEndianIntegers := by
  refine ⟨fun key i => ?_, fun iv i => ?_, fun w n => ?_⟩
  · rw [subkeys_toNat, littleEndian_toList_slice key (by omega)]
  · rw [ivUnits_toNat, littleEndian_toList_slice iv (by omega)]
  · obtain ⟨hlo, hhi⟩ := serialize_getElem w n
    rw [littleEndian_toList_slice (serialize w) (by omega), hlo, hhi, lowByte_add_highByte]

/-- Settles O17: the words XORed in are packed from the IV sub-words by the pair table. -/
theorem ivInjectionFollowsPairTable : Obligations.IvInjectionFollowsPairTable := by
  intro iv w siv p
  have hsiv : ∀ j : Fin 4, (ivUnits iv)[j].toNat = siv j := ivUnits_toNat iv
  refine ⟨fun i => ?_, injectIv_x iv w, injectIv_carry iv w⟩
  rw [injectIv_c_getElem, BitVec.toNat_xor, ← hsiv, ← hsiv]
  exact congrArg _ (packPairs_toNat ivPairs (ivUnits iv) i)

/-- Settles O22: the injection of the all-zero IV leaves the snapshot's copy as it is. -/
theorem zeroIvIsFourNextStates : Obligations.ZeroIvIsFourNextStates := by
  intro s hkeyed
  refine ⟨_, exec_setiv_exact (Vector.replicate 8 0) hkeyed, ?_⟩
  rw [State.complete_engine, Engine.withWork_work, ivSetup_eq, injectIv_zero]

end Sys2Proof.Proofs
end
